-- ==== Sys2Proof/Word.lean ====
section
/-! DEFINITION. The word types of the machine (spec/00_scope.md R4, R6, R7). All values are unsigned;
the ISA has no sign extension. -/

namespace Sys2Proof

/-- A byte: a general register, a timer, a memory cell, the immediate `kk`, the random byte. -/
abbrev Byte := BitVec 8

/-- Sixteen bits: the opcode, `I`, `PC`, a stack slot, the key snapshot (R12, R13, R15, R81). -/
abbrev Word := BitVec 16

/-- The 12-bit immediate `addr` (written `nnn` in patterns), R63. -/
abbrev Addr := BitVec 12

/-- One of the four 4-bit fields of an opcode, R62. -/
abbrev Nibble := BitVec 4

/-- The number of a general register. Every index a 4-bit field can hold exists (R10). -/
abbrev Reg := Fin 16

/-- A row of the framebuffer, 0 at the top (R20). -/
abbrev Row := Fin 32

/-- A column of the framebuffer, 0 at the left (R20). -/
abbrev Col := Fin 64

/-- The number of a key of the 16-flag snapshot (R56). -/
abbrev Key := Fin 16

end Sys2Proof
end

