-- ==== Sys2Proof/Syntax.lean ====
section
/-! DEFINITION. The instructions: one constructor per row of spec/opcode_table.json
(spec/30_encoding.md R66), operands as R63 names them. -/

namespace Sys2Proof

/-- The 34 instructions. `x`, `y` are register numbers, `kk` an 8-bit immediate, `addr` a 12-bit one and
`n` a sprite height. Each operand's type is exactly what its field can hold (R63), so no instruction term
is ill-formed. `shr` and `shl` keep the field `y`, which they ignore (R68; notes/assumptions/25.md). -/
inductive Instr where
  /-- `00E0` CLS (R150). -/
  | cls
  /-- `00EE` RET (R100). -/
  | ret
  /-- `1nnn` JP addr (R101). -/
  | jp (addr : Addr)
  /-- `2nnn` CALL addr (R102). -/
  | call (addr : Addr)
  /-- `3xkk` SE Vx, kk (R110). -/
  | seImm (x : Reg) (kk : Byte)
  /-- `4xkk` SNE Vx, kk (R111). -/
  | sneImm (x : Reg) (kk : Byte)
  /-- `5xy0` SE Vx, Vy (R112). -/
  | seReg (x y : Reg)
  /-- `6xkk` LD Vx, kk (R120). -/
  | ldImm (x : Reg) (kk : Byte)
  /-- `7xkk` ADD Vx, kk (R121). -/
  | addImm (x : Reg) (kk : Byte)
  /-- `8xy0` LD Vx, Vy (R122). -/
  | ldReg (x y : Reg)
  /-- `8xy1` OR Vx, Vy (R123). -/
  | orReg (x y : Reg)
  /-- `8xy2` AND Vx, Vy (R124). -/
  | andReg (x y : Reg)
  /-- `8xy3` XOR Vx, Vy (R125). -/
  | xorReg (x y : Reg)
  /-- `8xy4` ADD Vx, Vy (R126). -/
  | addReg (x y : Reg)
  /-- `8xy5` SUB Vx, Vy (R127). -/
  | sub (x y : Reg)
  /-- `8xy6` SHR Vx (R128). -/
  | shr (x y : Reg)
  /-- `8xy7` SUBN Vx, Vy (R129). -/
  | subn (x y : Reg)
  /-- `8xyE` SHL Vx (R130). -/
  | shl (x y : Reg)
  /-- `9xy0` SNE Vx, Vy (R113). -/
  | sneReg (x y : Reg)
  /-- `Annn` LD I, addr (R140). -/
  | ldI (addr : Addr)
  /-- `Bnnn` JP V0, addr (R103). -/
  | jpV0 (addr : Addr)
  /-- `Cxkk` RND Vx, kk (R131). -/
  | rnd (x : Reg) (kk : Byte)
  /-- `Dxyn` DRW Vx, Vy, n (R151). -/
  | drw (x y : Reg) (n : Fin 16)
  /-- `Ex9E` SKP Vx (R163). -/
  | skp (x : Reg)
  /-- `ExA1` SKNP Vx (R164). -/
  | sknp (x : Reg)
  /-- `Fx07` LD Vx, DT (R160). -/
  | ldVxDt (x : Reg)
  /-- `Fx0A` LD Vx, K (R165). -/
  | ldVxK (x : Reg)
  /-- `Fx15` LD DT, Vx (R161). -/
  | ldDtVx (x : Reg)
  /-- `Fx18` LD ST, Vx (R162). -/
  | ldStVx (x : Reg)
  /-- `Fx1E` ADD I, Vx (R141). -/
  | addI (x : Reg)
  /-- `Fx29` LD F, Vx (R142). -/
  | ldF (x : Reg)
  /-- `Fx33` LD B, Vx (R143). -/
  | ldB (x : Reg)
  /-- `Fx55` LD [I], Vx (R144). -/
  | stRegs (x : Reg)
  /-- `Fx65` LD Vx, [I] (R145). -/
  | ldRegs (x : Reg)
  deriving DecidableEq, Repr

end Sys2Proof
end

