-- ==== Sys2Proof/Decode.lean ====
section
/-! DEFINITION. The decoder, total on any bytes and rejecting by name, and after it the encoder, both from
the opcode map of spec/30_encoding.md (R60 to R68). -/

namespace Sys2Proof

/-- Why a run of bytes is no instruction. -/
inductive DecodeError where
  /-- Fewer than the two bytes an instruction has (R60). Safe: the machine never decodes such a run,
  since a fetch that cannot read both bytes faults first (R86). -/
  | truncated
  /-- The opcode matches no row of the map (R65, R67): the "unimplemented opcode" condition. Safe: it is
  the spec's own fault. -/
  | unimplemented (op : Word)
  deriving DecidableEq, Repr

/-- The opcode of a byte pair, high byte at the lower address (R61, R46). -/
def assembleOpcode (hi lo : Byte) : Word := hi ++ lo

/-- Field `a`, bits 15:12 (R62). -/
def fieldA (op : Word) : Nibble := op.extractLsb' 12 4

/-- Field `b`, bits 11:8 (R62). -/
def fieldB (op : Word) : Nibble := op.extractLsb' 8 4

/-- Field `c`, bits 7:4 (R62). -/
def fieldC (op : Word) : Nibble := op.extractLsb' 4 4

/-- Field `d`, bits 3:0 (R62). -/
def fieldD (op : Word) : Nibble := op.extractLsb' 0 4

/-- Operand `kk`, bits 7:0 (R63). -/
def fieldKk (op : Word) : Byte := op.extractLsb' 0 8

/-- Operand `addr`, bits 11:0 (R63). -/
def fieldAddr (op : Word) : Addr := op.extractLsb' 0 12

/-- A 4-bit field as a number 0..15: the register index `x` or `y`, or the height `n` (R63). -/
def Nibble.index (f : Nibble) : Fin 16 := f.toFin

/-- The rows whose first nibble is 8, told apart by `d` (R66). -/
def decodeEight (x y : Reg) (d : Nibble) : Option Instr :=
  if d = 0x0 then some (.ldReg x y)
  else if d = 0x1 then some (.orReg x y)
  else if d = 0x2 then some (.andReg x y)
  else if d = 0x3 then some (.xorReg x y)
  else if d = 0x4 then some (.addReg x y)
  else if d = 0x5 then some (.sub x y)
  else if d = 0x6 then some (.shr x y)
  else if d = 0x7 then some (.subn x y)
  else if d = 0xE then some (.shl x y)
  else none

/-- The rows whose first nibble is E, told apart by `kk` (R66). -/
def decodeE (x : Reg) (kk : Byte) : Option Instr :=
  if kk = 0x9E then some (.skp x)
  else if kk = 0xA1 then some (.sknp x)
  else none

/-- The rows whose first nibble is F, told apart by `kk` (R66). -/
def decodeF (x : Reg) (kk : Byte) : Option Instr :=
  if kk = 0x07 then some (.ldVxDt x)
  else if kk = 0x0A then some (.ldVxK x)
  else if kk = 0x15 then some (.ldDtVx x)
  else if kk = 0x18 then some (.ldStVx x)
  else if kk = 0x1E then some (.addI x)
  else if kk = 0x29 then some (.ldF x)
  else if kk = 0x33 then some (.ldB x)
  else if kk = 0x55 then some (.stRegs x)
  else if kk = 0x65 then some (.ldRegs x)
  else none

/-- The dispatch of R65, by first nibble. Every hexadecimal digit of a pattern is matched, letters are
free (decision D14, notes/assumptions/15.md). -/
def decodeWord (op : Word) : Option Instr :=
  let x : Reg := Nibble.index (fieldB op)
  let y : Reg := Nibble.index (fieldC op)
  let n : Fin 16 := Nibble.index (fieldD op)
  let kk := fieldKk op
  let addr := fieldAddr op
  match (fieldA op).toNat with
  | 0x0 => if op = 0x00E0 then some .cls else if op = 0x00EE then some .ret else none
  | 0x1 => some (.jp addr)
  | 0x2 => some (.call addr)
  | 0x3 => some (.seImm x kk)
  | 0x4 => some (.sneImm x kk)
  | 0x5 => if fieldD op = 0x0 then some (.seReg x y) else none
  | 0x6 => some (.ldImm x kk)
  | 0x7 => some (.addImm x kk)
  | 0x8 => decodeEight x y (fieldD op)
  | 0x9 => if fieldD op = 0x0 then some (.sneReg x y) else none
  | 0xA => some (.ldI addr)
  | 0xB => some (.jpV0 addr)
  | 0xC => some (.rnd x kk)
  | 0xD => some (.drw x y n)
  | 0xE => decodeE x kk
  | _ => decodeF x kk

/-- One instruction off the front of a run of bytes, with the bytes after it (R60, R61). -/
def decode : List Byte → Except DecodeError (Instr × List Byte)
  | hi :: lo :: rest =>
    match decodeWord (assembleOpcode hi lo) with
    | some i => .ok (i, rest)
    | none => .error (.unimplemented (assembleOpcode hi lo))
  | _ => .error .truncated

/-- The high byte of an opcode, which memory holds at the lower address (R61). -/
def highByte (op : Word) : Byte := op.extractLsb' 8 8

/-- The low byte of an opcode (R61). -/
def lowByte (op : Word) : Byte := op.extractLsb' 0 8

/-- A word as memory holds it, lowest address first (R46). -/
def wordBytes (op : Word) : List Byte := [highByte op, lowByte op]

/-- The opcode of a table row's word: bits at and above `nbits` are 0. -/
def tableWord (nbits w : Nat) : Word := BitVec.ofNat 16 (w % 2 ^ nbits)

/-- The instruction the decoder reads from a table row's word, laid out as memory holds it. -/
def decodeTableWord (nbits w : Nat) : Option Instr :=
  match decode (wordBytes (tableWord nbits w)) with
  | .ok (i, _) => some i
  | .error _ => none

/-! ### The encoder -/

/-- A register number or a height as its 4-bit field (R63). -/
def nibbleOf (r : Fin 16) : Nibble := BitVec.ofFin r

/-- Format `A`: a fixed nibble and `addr` (R64). -/
def encodeA (a : Nibble) (addr : Addr) : Word := a ++ addr

/-- Format `XK`: a fixed nibble, `x`, `kk` (R64); format `XL` too, with `kk` fixed. -/
def encodeXK (a : Nibble) (x : Reg) (kk : Byte) : Word := a ++ nibbleOf x ++ kk

/-- Format `XYN`: a fixed nibble, `x`, `y`, `n` (R64); format `XY` too, with `n` fixed. -/
def encodeXYN (a : Nibble) (x y : Reg) (n : Fin 16) : Word := a ++ nibbleOf x ++ nibbleOf y ++ nibbleOf n

/-- The word of an instruction (R64, R66). -/
def encode : Instr → Word
  | .cls => 0x00E0
  | .ret => 0x00EE
  | .jp addr => encodeA 0x1 addr
  | .call addr => encodeA 0x2 addr
  | .seImm x kk => encodeXK 0x3 x kk
  | .sneImm x kk => encodeXK 0x4 x kk
  | .seReg x y => encodeXYN 0x5 x y 0x0
  | .ldImm x kk => encodeXK 0x6 x kk
  | .addImm x kk => encodeXK 0x7 x kk
  | .ldReg x y => encodeXYN 0x8 x y 0x0
  | .orReg x y => encodeXYN 0x8 x y 0x1
  | .andReg x y => encodeXYN 0x8 x y 0x2
  | .xorReg x y => encodeXYN 0x8 x y 0x3
  | .addReg x y => encodeXYN 0x8 x y 0x4
  | .sub x y => encodeXYN 0x8 x y 0x5
  | .shr x y => encodeXYN 0x8 x y 0x6
  | .subn x y => encodeXYN 0x8 x y 0x7
  | .shl x y => encodeXYN 0x8 x y 0xE
  | .sneReg x y => encodeXYN 0x9 x y 0x0
  | .ldI addr => encodeA 0xA addr
  | .jpV0 addr => encodeA 0xB addr
  | .rnd x kk => encodeXK 0xC x kk
  | .drw x y n => encodeXYN 0xD x y n
  | .skp x => encodeXK 0xE x 0x9E
  | .sknp x => encodeXK 0xE x 0xA1
  | .ldVxDt x => encodeXK 0xF x 0x07
  | .ldVxK x => encodeXK 0xF x 0x0A
  | .ldDtVx x => encodeXK 0xF x 0x15
  | .ldStVx x => encodeXK 0xF x 0x18
  | .addI x => encodeXK 0xF x 0x1E
  | .ldF x => encodeXK 0xF x 0x29
  | .ldB x => encodeXK 0xF x 0x33
  | .stRegs x => encodeXK 0xF x 0x55
  | .ldRegs x => encodeXK 0xF x 0x65

end Sys2Proof
end

