-- ==== Sys2Proof/Config.lean ====
section
/-! DEFINITION. The sizes the spec fixes (spec/00_scope.md R4) and the inputs it leaves free: the key
snapshot and the random byte of each Step (R23, R81). The parameters a test could show wrong, `FONT` and
`I_FLAG_LIMIT` (R5), stand in Machine/Params.lean. -/

namespace Sys2Proof.Config

/-- `MEM_SIZE`: addresses 0x000..0xFFF (R4, R41). -/
abbrev memSize : Nat := 4096

/-- `PROG_BASE`: where the loaded program begins, and the reset value of `PC` (R4, R42). -/
abbrev progBase : Nat := 0x200

/-- `ROM_MAX`: the longest program a Load accepts, 4096 - 512 bytes (R4, R193). -/
abbrev romMax : Nat := 3584

/-- `FLAG_REG`: the register that doubles as the flag (R4, R11). -/
abbrev flagReg : Reg := 15

/-- The key snapshot `KEYS` of the Step numbered `n`, where the state lists no input for that Step: a FREE
VALUE, with no body, so nothing can be proved of it (R81; DESIGN CHOICE, notes/assumptions/1.md; safe). -/
opaque freeKeys (n : Nat) : Word

/-- The random byte `RND` of the Step numbered `n`, where the state lists no input for that Step: a FREE
VALUE, with no body (R131, R81, decision D7; DESIGN CHOICE, notes/assumptions/2.md; safe). -/
opaque freeRandom (n : Nat) : Byte

end Sys2Proof.Config
end

