-- ==== Sys2Proof/Machine/State.lean ====
section
/-! DEFINITION. The machine's state as plain data, its reset value, and the ways a step can stop
(spec/10_state.md, spec/60_exceptions.md R171). -/

namespace Sys2Proof.Machine

/-- The causes the fault latch can hold (R171). -/
inductive Cause where
  /-- Code 1: the opcode matches no row of the map (R172). -/
  | unimplOpcode
  /-- Code 2: `PC + 1` lies outside memory at a fetch (R173). -/
  | fetchOob
  /-- Code 3: a data access would reach above 0xFFF (R174). -/
  | dataOob
  /-- Code 4: `2nnn` with `SP = 16` (R175). -/
  | stackOverflow
  /-- Code 5: `00EE` with `SP = 0` (R176). -/
  | stackUnderflow
  /-- Code 6: `Ex9E` or `ExA1` with `V[x] > 15` (R177). -/
  | keyOob
  /-- Code 7: a Load of more than 3584 bytes (R178). -/
  | romTooLarge
  deriving DecidableEq, Repr

/-- Where the block stands in its life (R191): created, then at most one Load, then Steps. The model's own
field (DESIGN CHOICE, notes/assumptions/5.md; safe). -/
inductive Lifecycle where
  | created
  | loaded
  | stepped
  deriving DecidableEq, Repr

/-- The inputs the host gives with one Step (R81): bit `k` of `keys` says that key `k` is held (D28), and
`rnd` is the random byte. -/
structure StepInput where
  keys : Word
  rnd : Byte
  deriving DecidableEq, Repr

/-- Main memory: the bytes that differ from the reset contents, as (address, byte) pairs with strictly
rising addresses (notes/assumptions/20.md). -/
abbrev Memory := List Host.Cell

/-- The framebuffer `FB[r][c]`: 32 rows of 64 pixels (R20). -/
abbrev Grid := Vector (Vector Bool 64) 32

/-- The whole state of the block (spec/10_state.md, summary table). The last four fields are the model's
own: the output of the last Step, the place in the lifecycle, the inputs the host has lined up for the
next Steps, and how many Steps have ended. -/
structure State where
  /-- `V[0]`..`V[15]`; `V[15]` is `VF` (R10, R11). -/
  v : Vector Byte 16
  /-- `I` (R12). -/
  i : Word
  /-- `PC` (R13). -/
  pc : Word
  /-- `STACK[0]`..`STACK[15]` (R15). -/
  stack : Vector Word 16
  /-- `SP`, 0 (empty) to 16 (full) (R16). -/
  sp : Fin 17
  /-- `DT` (R17). -/
  dt : Byte
  /-- `ST` (R18). -/
  st : Byte
  /-- `MEM` (R19, R41). -/
  mem : Memory
  /-- `FB` (R20). -/
  fb : Grid
  /-- `WAIT`: true is AwaitingKey, false is Running (R21). -/
  wait : Bool
  /-- `WREG`, meaningless while `WAIT = 0` (R21). -/
  wreg : Reg
  /-- `FAULT`: `none` is the spec's `NONE` (R22). -/
  fault : Option Cause
  /-- The `changed` output of the last Step (R89; notes/assumptions/4.md). -/
  changed : Bool
  /-- Where R191's order of reset, Load and Steps has come to (notes/assumptions/5.md). -/
  lifecycle : Lifecycle
  /-- The inputs of the next Steps, the next one first (R81, R23; notes/assumptions/3.md). -/
  inputs : List StepInput
  /-- How many Steps have ended: the index of the free inputs (notes/assumptions/3.md). -/
  stepCount : Nat
  deriving DecidableEq, Repr

/-- The block right after reset (R190): font loaded (memory lists nothing, and an unlisted byte reads as
the reset contents), all else zero, `PC` at 0x200. The last four values are the model's choice
(notes/assumptions/3.md, 4.md, 5.md). -/
def State.reset : State where
  v := Vector.replicate 16 0
  i := 0
  pc := 0x200
  stack := Vector.replicate 16 0
  sp := 0
  dt := 0
  st := 0
  mem := []
  fb := Vector.replicate 32 (Vector.replicate 64 false)
  wait := false
  wreg := 0
  fault := none
  changed := false
  lifecycle := .created
  inputs := []
  stepCount := 0

/-- A fatal condition (R170, R171): the block is Halted for good. Each carries the Halted state, which has
the cause latched in `FAULT` (R22, R181): a Halted state is the machine's fault outcome and no next state
(R83, R181, decision D3; notes/assumptions/6.md). -/
inductive Fault where
  /-- Raised by a Step whose opcode matches no row of the map (R172). Safe: the spec's own stop. -/
  | unimplOpcode (halted : State)
  /-- Raised by a Running Step that begins with `PC >= 4095` (R173). Safe: the spec's own stop. -/
  | fetchOob (halted : State)
  /-- Raised by `Dxyn`, `Fx33`, `Fx55`, `Fx65` whose highest data address is above 0xFFF (R174). Safe: the
  spec's own stop. -/
  | dataOob (halted : State)
  /-- Raised by `2nnn` with all 16 slots in use (R175). Safe: the spec's own stop. -/
  | stackOverflow (halted : State)
  /-- Raised by `00EE` on an empty stack (R176). Safe: the spec's own stop. -/
  | stackUnderflow (halted : State)
  /-- Raised by `Ex9E`, `ExA1` with `V[x] > 15` (R177, decision D6). Safe: it stops where the source
  may not. -/
  | keyOob (halted : State)
  /-- Raised by a Load of more than 3584 bytes (R178, R193). Safe: the spec's own stop. -/
  | romTooLarge (halted : State)
  deriving DecidableEq, Repr

/-- What the model gives no meaning. -/
inductive Refusal where
  /-- Raised by `exec` for an instruction that has no meaning yet. Safe: nothing can be proved of it. No
  arm raises it in this model. -/
  | notModelled (mnemonic : String)
  /-- Raised by `load` after a Load or after the first Step (R191, decision D16). Safe. -/
  | loadOutOfOrder
  /-- Raised by the pixel read port for coordinates outside the grid (R55, decision D1). Safe. -/
  | pixelOutOfRange
  deriving DecidableEq, Repr

end Sys2Proof.Machine
end

