-- ==== Sys2Proof/Machine/Params.lean ====
section
/-! DEFINITION. The two parameters the source leaves open, at the values the spec takes (spec/00_scope.md
R5). They stand here, and not in Config.lean, because a test could show them wrong. -/

namespace Sys2Proof.Machine

/-- `FONT[0..79]`: 16 glyphs of 5 bytes, digits 0 to F (R43). The bytes are the family's usual font, from
general knowledge and not from the source (PRESUMED, notes/assumptions/7.md; unsafe for a claim about a
glyph's shape). -/
def fontTable : List Byte :=
  [0xF0, 0x90, 0x90, 0x90, 0xF0, 0x20, 0x60, 0x20, 0x20, 0x70, 0xF0, 0x10, 0xF0, 0x80, 0xF0,
   0xF0, 0x10, 0xF0, 0x10, 0xF0, 0x90, 0x90, 0xF0, 0x10, 0x10] ++
  [0xF0, 0x80, 0xF0, 0x10, 0xF0, 0xF0, 0x80, 0xF0, 0x90, 0xF0, 0xF0, 0x10, 0x20, 0x40, 0x40,
   0xF0, 0x90, 0xF0, 0x90, 0xF0, 0xF0, 0x90, 0xF0, 0x10, 0xF0] ++
  [0xF0, 0x90, 0xF0, 0x90, 0x90, 0xE0, 0x90, 0xE0, 0x90, 0xE0, 0xF0, 0x80, 0x80, 0x80, 0xF0,
   0xE0, 0x90, 0x90, 0x90, 0xE0] ++
  [0xF0, 0x80, 0xF0, 0x80, 0xF0, 0xF0, 0x80, 0xF0, 0x80, 0x80]

/-- `I_FLAG_LIMIT`: `Fx1E` sets its flag when the sum is greater than this (R141, R5, decision D10;
notes/assumptions/8.md). -/
def iFlagLimit : Nat := 0x0FFF

end Sys2Proof.Machine
end

