-- ==== Sys2Proof/Machine/Ops.lean ====
section
/-! DEFINITION. The named operations over registers, stack, memory and framebuffer; the end of a Step; and
taking a fault (spec/60_exceptions.md R181), which is this machine's one exception entry. There is no return
from a fault (R182). -/

namespace Sys2Proof.Machine

/-- What a step of this machine answers. -/
abbrev Result := Host.Outcome State Fault Refusal

/-! ### Registers (R10 to R18) -/

/-- Read `V[r]`. -/
def State.reg (s : State) (r : Reg) : Byte := s.v[r]

/-- Write `V[r]`. -/
def State.setReg (r : Reg) (b : Byte) (s : State) : State := { s with v := s.v.set r b }

/-- Write `VF`, which is `V[15]` (R11). -/
def State.setFlag (b : Byte) (s : State) : State := s.setReg Config.flagReg b

/-- Write `I` (R12). -/
def State.setIndex (a : Word) (s : State) : State := { s with i := a }

/-- Write `PC`; nothing is checked (R13, R88, decision D22; notes/assumptions/19.md). -/
def State.setPc (a : Word) (s : State) : State := { s with pc := a }

/-- Write `DT` (R17). -/
def State.setDelay (b : Byte) (s : State) : State := { s with dt := b }

/-- Write `ST` (R18). -/
def State.setSound (b : Byte) (s : State) : State := { s with st := b }

/-- Write `V[0]`, `V[1]`, ... from a list of bytes, from register `k` on, lowest first (R145). -/
def State.setRegsFrom : Nat → List Byte → State → State
  | _, [], s => s
  | k, b :: bs, s => State.setRegsFrom (k + 1) bs (if h : k < 16 then s.setReg ⟨k, h⟩ b else s)

/-- Push `a`: write slot `STACK[SP]`, then `SP + 1`; `none` when all 16 slots are in use (R16, R102). -/
def State.push (a : Word) (s : State) : Option State :=
  if h : s.sp.val < 16 then
    some { s with stack := s.stack.set s.sp.val a, sp := ⟨s.sp.val + 1, by omega⟩ }
  else none

/-- Pop: `SP - 1`, then the slot just vacated, which keeps its value; `none` on an empty stack (R16, R100). -/
def State.pop (s : State) : Option (Word × State) :=
  if h : s.sp.val = 0 then none
  else some (s.stack[s.sp.val - 1], { s with sp := ⟨s.sp.val - 1, by omega⟩ })

/-! ### Timers (R85) -/

/-- One tick of a timer: down by one, with its floor at zero. -/
def countDown (b : Byte) : Byte := if b = 0 then 0 else b - 1

/-- The timer decrement of a Running Step: `DT` and `ST`, each on its own (R85; notes/assumptions/17.md). -/
def State.tickTimers (s : State) : State := { s with dt := countDown s.dt, st := countDown s.st }

/-! ### Memory (R40 to R53) -/

/-- What an address that memory does not list reads as: the reset contents, the font and then zeros
(R19, R42; notes/assumptions/20.md). -/
def Memory.initial (a : Nat) : Byte := fontTable.getD a 0

/-- The byte of memory at an address. -/
def Memory.read (m : Memory) (a : Nat) : Byte :=
  match m with
  | [] => Memory.initial a
  | (b, w) :: rest => if b = a then w else Memory.read rest a

/-- Put a cell before the first one with a higher address. -/
def Memory.insert (a : Nat) (w : Byte) : Memory → Memory
  | [] => [(a, w)]
  | (b, u) :: rest => if a < b then (a, w) :: (b, u) :: rest else (b, u) :: Memory.insert a w rest

/-- Store a byte, keeping the canonical form: the address's old cell goes, and a new one stands in its
order unless the byte is what an unlisted address reads as. -/
def Memory.write (a : Nat) (w : Byte) (m : Memory) : Memory :=
  let others := m.filter (fun c => c.1 != a)
  if w = Memory.initial a then others else Memory.insert a w others

/-- Store bytes at rising addresses from `a` on (R47). -/
def Memory.writeList (a : Nat) : List Byte → Memory → Memory
  | [], m => m
  | w :: ws, m => Memory.writeList (a + 1) ws (Memory.write a w m)

/-- The `n` bytes from address `a` on, lowest first (R47). -/
def Memory.readList (m : Memory) (a : Nat) : Nat → List Byte
  | 0 => []
  | n + 1 => Memory.read m a :: Memory.readList m (a + 1) n

/-- The canonical form: addresses inside memory and strictly rising, and no cell that an unlisted address
would read the same as. -/
def Memory.wf : Memory → Bool
  | [] => true
  | (a, w) :: rest =>
    decide (a < Config.memSize) && decide (w ≠ Memory.initial a) && rest.all (fun c => decide (a < c.1)) &&
      Memory.wf rest

/-- Whether `n` bytes from `a` on all lie in 0x000..0xFFF. Addresses are unbounded numbers and are never
reduced (R44, R45, decision D5; notes/assumptions/13.md); no bytes are no access. -/
def inMemory (a n : Nat) : Bool := n == 0 || decide (a + n ≤ Config.memSize)

/-- `MemRead` of a run of bytes: `none` when the highest address lies above 0xFFF, and then nothing is read
(R44, R45, decision D4). -/
def State.loadBytes (s : State) (a n : Nat) : Option (List Byte) :=
  if inMemory a n then some (s.mem.readList a n) else none

/-- `MemWrite` of a run of bytes: `none` when the highest address lies above 0xFFF, and then nothing is
written (R44, R45, R50, decision D4). No address is protected (D15, notes/assumptions/16.md). -/
def State.storeBytes (a : Nat) (bs : List Byte) (s : State) : Option State :=
  if inMemory a bs.length then some { s with mem := s.mem.writeList a bs } else none

/-- One byte of memory, as a host or a statement looks at it. -/
def State.byteAt (s : State) (a : Nat) : Byte := s.mem.read a

/-! ### Framebuffer (R20, R150 to R152) -/

/-- The pixel `FB[r][c]`. -/
def Grid.pixel (g : Grid) (r : Row) (c : Col) : Bool := (g[r])[c]

/-- The pixel `FB[r][c]` of a state. -/
def State.pixel (s : State) (r : Row) (c : Col) : Bool := s.fb.pixel r c

/-- The blank screen. -/
def Grid.blank : Grid := Vector.replicate 32 (Vector.replicate 64 false)

/-- Write the whole framebuffer. -/
def State.setScreen (g : Grid) (s : State) : State := { s with fb := g }

/-- One row of pixels, or the whole screen, with the collision accumulated so far (R151). -/
structure Drawn (α : Type) where
  pixels : α
  coll : Bool
  deriving DecidableEq, Repr

/-- Bit `bit` of a sprite byte, bit 0 being the byte's most significant bit (R151, R152). -/
def spriteBit (b : Byte) (bit : Nat) : Bool := b.getLsbD (7 - bit)

/-- XOR one sprite bit onto the pixel at column `col mod 64` of a row, and accumulate the collision
(R151). -/
def plotBit (col : Nat) (new : Bool) (k : Drawn (Vector Bool 64)) : Drawn (Vector Bool 64) :=
  let c : Col := Fin.ofNat 64 col
  { pixels := k.pixels.set c (k.pixels[c] ^^ new), coll := k.coll || (k.pixels[c] && new) }

/-- Draw the sprite byte `b` onto a row from column `col` on: its bits `bit`, `bit + 1`, ... left to right,
as many as the first argument says (R151). -/
def plotBits (col : Nat) (b : Byte) : Nat → Nat → Drawn (Vector Bool 64) → Drawn (Vector Bool 64)
  | 0, _, k => k
  | left + 1, bit, k => plotBits col b left (bit + 1) (plotBit (col + bit) (spriteBit b bit) k)

/-- Draw one sprite byte onto row `row mod 32` of the screen (R151). -/
def plotByte (row col : Nat) (b : Byte) (k : Drawn Grid) : Drawn Grid :=
  let r : Row := Fin.ofNat 32 row
  let d := plotBits col b 8 0 { pixels := k.pixels[r], coll := k.coll }
  { pixels := k.pixels.set r d.pixels, coll := d.coll }

/-- Draw a sprite's bytes from row `row` down, the first one the top row (R151, R152). -/
def plotBytes (row col : Nat) : List Byte → Drawn Grid → Drawn Grid
  | [], k => k
  | b :: bs, k => plotBytes (row + 1) col bs (plotByte row col b k)

/-- XOR-blit a sprite with its left upper corner at column `vx`, row `vy`, both axes wrapping, from a
collision of 0 (R151, decision D9; notes/assumptions/11.md). -/
def drawSprite (vx vy : Byte) (sprite : List Byte) (g : Grid) : Drawn Grid :=
  plotBytes vy.toNat vx.toNat sprite { pixels := g, coll := false }

/-! ### The inputs of the Step (R23, R81) -/

/-- The key snapshot of the Step in progress (notes/assumptions/1.md). -/
def State.keys (s : State) : Word :=
  match s.inputs with
  | i :: _ => i.keys
  | [] => Config.freeKeys s.stepCount

/-- The random byte of the Step in progress (notes/assumptions/2.md). -/
def State.rnd (s : State) : Byte :=
  match s.inputs with
  | i :: _ => i.rnd
  | [] => Config.freeRandom s.stepCount

/-! ### The key wait (R21, R84, R90) -/

/-- Enter AwaitingKey(r) (R165). -/
def State.enterWait (r : Reg) (s : State) : State := { s with wait := true, wreg := r }

/-- Return to Running; `WREG` keeps its value (R21, R84). -/
def State.leaveWait (s : State) : State := { s with wait := false }

/-! ### The end of a Step -/

/-- What an instruction asks of the program counter (R87). -/
inductive PcAction where
  /-- `PC + 2`. -/
  | next
  /-- `PC + 4`. -/
  | skip
  /-- The target as it is. -/
  | jump (target : Word)
  deriving DecidableEq, Repr

/-- The new `PC` (R88). -/
def PcAction.target (act : PcAction) (pc : Word) : Word :=
  match act with
  | .next => pc + 2
  | .skip => pc + 4
  | .jump t => t

/-- The Step ends: its output `changed` is set (R89), its inputs are used up (R23), and a Load is too late
from now on (R191). -/
def State.endStep (changed : Bool) (s : State) : State :=
  { s with changed := changed, lifecycle := .stepped, inputs := s.inputs.tail, stepCount := s.stepCount + 1 }

/-- An instruction completes: its program-counter action is applied after its other effects (R88), and the
Step ends with the given `changed` (R82 lines 3e and 3f). -/
def complete (act : PcAction) (changed : Bool) (s : State) : Result :=
  .next ((s.setPc (act.target s.pc)).endStep changed)

/-! ### Faults (R91, R170 to R182) -/

/-- The cause's number in the table of R171, where 0 is `NONE`. -/
def faultCode : Option Cause → Nat
  | none => 0
  | some .unimplOpcode => 1
  | some .fetchOob => 2
  | some .dataOob => 3
  | some .stackOverflow => 4
  | some .stackUnderflow => 5
  | some .keyOob => 6
  | some .romTooLarge => 7

/-- The fault outcome of a cause, with the Halted state it leaves. -/
def Cause.fault (c : Cause) (halted : State) : Fault :=
  match c with
  | .unimplOpcode => .unimplOpcode halted
  | .fetchOob => .fetchOob halted
  | .dataOob => .dataOob halted
  | .stackOverflow => .stackOverflow halted
  | .stackUnderflow => .stackUnderflow halted
  | .keyOob => .keyOob halted
  | .romTooLarge => .romTooLarge halted

/-- The cause of a fault outcome. -/
def Fault.cause : Fault → Cause
  | .unimplOpcode _ => .unimplOpcode
  | .fetchOob _ => .fetchOob
  | .dataOob _ => .dataOob
  | .stackOverflow _ => .stackOverflow
  | .stackUnderflow _ => .stackUnderflow
  | .keyOob _ => .keyOob
  | .romTooLarge _ => .romTooLarge

/-- The Halted state a fault outcome carries (R181). -/
def Fault.halted : Fault → State
  | .unimplOpcode s => s
  | .fetchOob s => s
  | .dataOob s => s
  | .stackOverflow s => s
  | .stackUnderflow s => s
  | .keyOob s => s
  | .romTooLarge s => s

/-- Latch a cause (R22). -/
def State.latch (c : Cause) (s : State) : State := { s with fault := some c }

/-- Take a fault in a Step (R181, R91): `FAULT <- cause` and `changed = 0`; nothing else of the state
changes, so `PC` stays at the instruction and none of its effects is committed. The Step ends Halted, which
is the fault outcome (R83, R181, decision D3; notes/assumptions/6.md). -/
def raise (c : Cause) (s : State) : Result := .fault (c.fault ((s.latch c).endStep false))

/-- Go on with what an access or a stack operation gave, or take the fault it stands for. -/
def orRaise {α : Type} (c : Cause) (s : State) (got : Option α) (go : α → Result) : Result :=
  match got with
  | some a => go a
  | none => raise c s

end Sys2Proof.Machine
end

