-- ==== Sys2Proof/Machine/Operands.lean ====
section
/-! DEFINITION. The operand forms: what an instruction computes from its fields and the registers before it
acts (spec/20_memory.md R45, spec/30_encoding.md R63). -/

namespace Sys2Proof.Machine

/-- A 12-bit `addr` as a value of `PC` or `I`: zero-extended, not scaled (R63, R101, R140). -/
def addrWord (addr : Addr) : Word := addr.setWidth 16

/-- The target of `Bnnn`: `V[0] + addr` in 16 bits, which never wraps (R103, R45; decision D20,
notes/assumptions/18.md). -/
def offsetTarget (s : State) (addr : Addr) : Word := (s.reg 0).setWidth 16 + addrWord addr

/-- The return address `2nnn` pushes (R102). -/
def returnAddress (s : State) : Word := s.pc + 2

/-- The effective address `I + 0` of the data accesses, an unbounded number (R45). -/
def baseAddress (s : State) : Nat := s.i.toNat

/-- The address of a font glyph: the whole byte times 5, as a 16-bit product (R142, decision D11;
notes/assumptions/12.md). -/
def glyphAddress (b : Byte) : Word := BitVec.ofNat 16 (b.toNat * 5)

/-- The unreduced sum `I + vx` of `Fx1E` (R141). -/
def indexSum (i : Word) (vx : Byte) : Nat := i.toNat + vx.toNat

/-- The decimal digits of a byte, hundreds, tens, ones, one in each byte (R143). -/
def bcdDigits (b : Byte) : List Byte :=
  [BitVec.ofNat 8 (b.toNat / 100), BitVec.ofNat 8 (b.toNat / 10 % 10), BitVec.ofNat 8 (b.toNat % 10)]

/-- `V[k]`, `V[k+1]`, ...: `n` registers from number `k` on. -/
def State.regsFrom (s : State) : Nat → Nat → List Byte
  | _, 0 => []
  | k, n + 1 => (if h : k < 16 then s.reg ⟨k, h⟩ else 0) :: State.regsFrom s (k + 1) n

/-- The registers `V[0]`..`V[x]` that `Fx55` stores (R144). -/
def State.regsUpTo (s : State) (x : Reg) : List Byte := s.regsFrom 0 (x.val + 1)

/-- The key that a register value names: the full byte, and `none` above 15 (R56, R163, decision D6;
notes/assumptions/14.md). -/
def keyOf (b : Byte) : Option Key := if h : b.toNat < 16 then some ⟨b.toNat, h⟩ else none

/-- Whether a key is held in a snapshot: bit `k` (R81, D28). -/
def keyHeld (keys : Word) (k : Key) : Bool := keys.getLsbD k.val

/-- The keys in the order of the key-wait scan, ascending (R84). -/
def scanOrder : List Key := [0, 1, 2, 3, 4, 5, 6, 7, 8, 9, 10, 11, 12, 13, 14, 15]

/-- The lowest key held in a snapshot, if any (R84). -/
def lowestHeld (keys : Word) : Option Key := scanOrder.find? (keyHeld keys)

/-- A key's number as a byte, 0x00..0x0F (R84). -/
def keyByte (k : Key) : Byte := BitVec.ofNat 8 k.val

end Sys2Proof.Machine
end

