-- ==== Sys2Proof/Machine/Flags.lean ====
section
/-! DEFINITION. The flag computations: every value `VF` is given as a flag (spec/10_state.md R26), each 0x00
or 0x01, and the results they go with (spec/43_alu.md R133). -/

namespace Sys2Proof.Machine

/-- A flag as the byte written to `VF` (R26). -/
def flagByte (b : Bool) : Byte := if b then 1 else 0

/-- The unreduced sum of `8xy4` (R126). -/
def wideSum (vx vy : Byte) : Nat := vx.toNat + vy.toNat

/-- The carry of `8xy4`: the true sum is above 255 (R126, R133). -/
def carryFlag (vx vy : Byte) : Byte := flagByte (decide (wideSum vx vy > 255))

/-- The 8-bit result of `8xy4` and `7xkk` (R126, R121). -/
def sumByte (vx vy : Byte) : Byte := BitVec.ofNat 8 (wideSum vx vy)

/-- The flag of the subtractions: the minuend is strictly greater (R127, R129, R204). -/
def greaterFlag (minuend subtrahend : Byte) : Byte := flagByte (decide (minuend.toNat > subtrahend.toNat))

/-- The 8-bit difference, plus 256 where the minuend is smaller (R133). -/
def differenceByte (minuend subtrahend : Byte) : Byte :=
  BitVec.ofNat 8 (minuend.toNat + 256 - subtrahend.toNat)

/-- The bit `8xy6` shifts out (R128). -/
def lowBitFlag (vx : Byte) : Byte := flagByte (vx.getLsbD 0)

/-- The result of `8xy6`: bit 7 becomes 0 (R128). -/
def shiftedRight (vx : Byte) : Byte := vx >>> 1

/-- The bit `8xyE` shifts out, as 0 or 1 and never 0x80 (R130, decision D19; notes/assumptions/18.md). -/
def highBitFlag (vx : Byte) : Byte := flagByte (vx.getLsbD 7)

/-- The result of `8xyE`: bit 0 becomes 0 (R130). -/
def shiftedLeft (vx : Byte) : Byte := vx <<< 1

/-- The flag of `Fx1E`: the unreduced sum lies above `I_FLAG_LIMIT` (R141, decision D10;
notes/assumptions/8.md). -/
def indexFlag (i : Word) (vx : Byte) : Byte := flagByte (decide (indexSum i vx > iFlagLimit))

end Sys2Proof.Machine
end

