-- ==== Sys2Proof/Machine/Alu.lean ====
section
/-! DEFINITION. Register load, arithmetic, logic, shift and random (spec/43_alu.md): `6xkk`, `7xkk`, `8xy0` to
`8xy7`, `8xyE`, `Cxkk`. -/

namespace Sys2Proof.Machine

/-- An instruction that writes one register and no flag (R120 to R125, R131). -/
def writeResult (x : Reg) (result : Byte) (s : State) : Result := complete .next false (s.setReg x result)

/-- A flag-producing instruction: the flag to `V[15]` first, the result to `V[x]` second, both computed
from operands read before either write (R132, decision D8; notes/assumptions/10.md). -/
def writeFlagged (x : Reg) (flag result : Byte) (s : State) : Result :=
  complete .next false ((s.setFlag flag).setReg x result)

/-- `6xkk` LD Vx, kk (R120). -/
def execLdImm (x : Reg) (kk : Byte) (s : State) : Result := writeResult x kk s

/-- `7xkk` ADD Vx, kk: no flag (R121). -/
def execAddImm (x : Reg) (kk : Byte) (s : State) : Result := writeResult x (sumByte (s.reg x) kk) s

/-- `8xy0` LD Vx, Vy (R122). -/
def execLdReg (x y : Reg) (s : State) : Result := writeResult x (s.reg y) s

/-- `8xy1` OR Vx, Vy (R123). -/
def execOr (x y : Reg) (s : State) : Result := writeResult x (s.reg x ||| s.reg y) s

/-- `8xy2` AND Vx, Vy (R124). -/
def execAnd (x y : Reg) (s : State) : Result := writeResult x (s.reg x &&& s.reg y) s

/-- `8xy3` XOR Vx, Vy (R125). -/
def execXor (x y : Reg) (s : State) : Result := writeResult x (s.reg x ^^^ s.reg y) s

/-- `8xy4` ADD Vx, Vy (R126). -/
def execAddReg (x y : Reg) (s : State) : Result :=
  writeFlagged x (carryFlag (s.reg x) (s.reg y)) (sumByte (s.reg x) (s.reg y)) s

/-- `8xy5` SUB Vx, Vy (R127). -/
def execSub (x y : Reg) (s : State) : Result :=
  writeFlagged x (greaterFlag (s.reg x) (s.reg y)) (differenceByte (s.reg x) (s.reg y)) s

/-- `8xy6` SHR Vx: `y` is ignored (R128, R68). -/
def execShr (x _y : Reg) (s : State) : Result :=
  writeFlagged x (lowBitFlag (s.reg x)) (shiftedRight (s.reg x)) s

/-- `8xy7` SUBN Vx, Vy (R129). -/
def execSubn (x y : Reg) (s : State) : Result :=
  writeFlagged x (greaterFlag (s.reg y) (s.reg x)) (differenceByte (s.reg y) (s.reg x)) s

/-- `8xyE` SHL Vx: `y` is ignored (R130, R68). -/
def execShl (x _y : Reg) (s : State) : Result :=
  writeFlagged x (highBitFlag (s.reg x)) (shiftedLeft (s.reg x)) s

/-- `Cxkk` RND Vx, kk, with the random byte of this Step (R131). -/
def execRnd (x : Reg) (kk : Byte) (s : State) : Result := writeResult x (s.rnd &&& kk) s

end Sys2Proof.Machine
end

