-- ==== Sys2Proof/Machine/Display.lean ====
section
/-! DEFINITION. Display (spec/45_display.md): `00E0`, `Dxyn`, the only instructions whose Step returns
`changed = 1` (R89); and the host's pixel read port (spec/20_memory.md R55). -/

namespace Sys2Proof.Machine

/-- `00E0` CLS (R150). -/
def execCls (s : State) : Result := complete .next true (s.setScreen Grid.blank)

/-- `Dxyn` DRW Vx, Vy, n: the coordinates and the sprite are read before any write, then the pixels, then
the flag (R151). -/
def execDrw (x y : Reg) (n : Fin 16) (s : State) : Result :=
  orRaise .dataOob s (s.loadBytes (baseAddress s) n.val) fun sprite =>
    complete .next true
      ((s.setScreen (drawSprite (s.reg x) (s.reg y) sprite s.fb).pixels).setFlag
        (flagByte (drawSprite (s.reg x) (s.reg y) sprite s.fb).coll))

/-- The pixel read port at column `x`, row `y`, refused outside the grid (R55, decision D1;
notes/assumptions/24.md). -/
def pixelPort (x y : Nat) (s : State) : Except Refusal Bool :=
  if h : x < 64 ∧ y < 32 then .ok (s.pixel ⟨y, h.2⟩ ⟨x, h.1⟩) else .error .pixelOutOfRange

/-- The pixel read port by linear index `y * 64 + x` (R55). -/
def pixelPortLinear (k : Nat) (s : State) : Except Refusal Bool := pixelPort (k % 64) (k / 64) s

end Sys2Proof.Machine
end

