-- ==== Sys2Proof/Machine/Flow.lean ====
section
/-! DEFINITION. Control transfer (spec/41_flow.md): `00EE`, `1nnn`, `2nnn`, `Bnnn`. -/

namespace Sys2Proof.Machine

/-- `00EE` RET (R100, R176). -/
def execRet (s : State) : Result :=
  orRaise .stackUnderflow s s.pop fun popped => complete (.jump popped.1) false popped.2

/-- `1nnn` JP addr (R101). -/
def execJp (addr : Addr) (s : State) : Result := complete (.jump (addrWord addr)) false s

/-- `2nnn` CALL addr (R102, R175). -/
def execCall (addr : Addr) (s : State) : Result :=
  orRaise .stackOverflow s (s.push (returnAddress s)) (complete (.jump (addrWord addr)) false)

/-- `Bnnn` JP V0, addr (R103). -/
def execJpV0 (addr : Addr) (s : State) : Result := complete (.jump (offsetTarget s addr)) false s

end Sys2Proof.Machine
end

