-- ==== Sys2Proof/Machine/Index.lean ====
section
/-! DEFINITION. Index register and memory transfer (spec/44_index_memory.md): `Annn`, `Fx1E`, `Fx29`, `Fx33`,
`Fx55`, `Fx65`. No access changes `I` (R12, decision D25; notes/assumptions/18.md). -/

namespace Sys2Proof.Machine

/-- `Annn` LD I, addr (R140). -/
def execLdI (addr : Addr) (s : State) : Result := complete .next false (s.setIndex (addrWord addr))

/-- `Fx1E` ADD I, Vx: `I` first, then the flag, from a `Vx` read before either (R141, R132). -/
def execAddI (x : Reg) (s : State) : Result :=
  complete .next false
    ((s.setIndex (BitVec.ofNat 16 (indexSum s.i (s.reg x)))).setFlag (indexFlag s.i (s.reg x)))

/-- `Fx29` LD F, Vx (R142). -/
def execLdF (x : Reg) (s : State) : Result := complete .next false (s.setIndex (glyphAddress (s.reg x)))

/-- `Fx33` LD B, Vx (R143). -/
def execLdB (x : Reg) (s : State) : Result :=
  orRaise .dataOob s (s.storeBytes (baseAddress s) (bcdDigits (s.reg x))) (complete .next false)

/-- `Fx55` LD [I], Vx (R144). -/
def execStRegs (x : Reg) (s : State) : Result :=
  orRaise .dataOob s (s.storeBytes (baseAddress s) (s.regsUpTo x)) (complete .next false)

/-- `Fx65` LD Vx, [I] (R145). -/
def execLdRegs (x : Reg) (s : State) : Result :=
  orRaise .dataOob s (s.loadBytes (baseAddress s) (x.val + 1)) fun bytes =>
    complete .next false (s.setRegsFrom 0 bytes)

end Sys2Proof.Machine
end

