-- ==== Sys2Proof/Machine/Skip.lean ====
section
/-! DEFINITION. Conditional skips on register values (spec/42_skip.md): `3xkk`, `4xkk`, `5xy0`, `9xy0`. -/

namespace Sys2Proof.Machine

/-- Skip the next two bytes or not (R88). -/
def skipIf (b : Bool) : PcAction := if b then .skip else .next

/-- `3xkk` SE Vx, kk (R110). -/
def execSeImm (x : Reg) (kk : Byte) (s : State) : Result := complete (skipIf (s.reg x == kk)) false s

/-- `4xkk` SNE Vx, kk (R111). -/
def execSneImm (x : Reg) (kk : Byte) (s : State) : Result := complete (skipIf (s.reg x != kk)) false s

/-- `5xy0` SE Vx, Vy (R112). -/
def execSeReg (x y : Reg) (s : State) : Result := complete (skipIf (s.reg x == s.reg y)) false s

/-- `9xy0` SNE Vx, Vy (R113). -/
def execSneReg (x y : Reg) (s : State) : Result := complete (skipIf (s.reg x != s.reg y)) false s

end Sys2Proof.Machine
end

