-- ==== Sys2Proof/Machine/TimerKey.lean ====
section
/-! DEFINITION. Keypad and timer instructions (spec/46_timer_key.md): `Ex9E`, `ExA1`, `Fx07`, `Fx0A`, `Fx15`,
`Fx18`. The timers they see are those after this Step's decrement (R82). -/

namespace Sys2Proof.Machine

/-- `Ex9E` SKP Vx (R163, R177). -/
def execSkp (x : Reg) (s : State) : Result :=
  orRaise .keyOob s (keyOf (s.reg x)) fun k => complete (skipIf (keyHeld s.keys k)) false s

/-- `ExA1` SKNP Vx (R164, R177). -/
def execSknp (x : Reg) (s : State) : Result :=
  orRaise .keyOob s (keyOf (s.reg x)) fun k => complete (skipIf (!keyHeld s.keys k)) false s

/-- `Fx07` LD Vx, DT (R160). -/
def execLdVxDt (x : Reg) (s : State) : Result := complete .next false (s.setReg x s.dt)

/-- `Fx0A` LD Vx, K: enter AwaitingKey(x); no register is written and the snapshot is not looked at
(R165, R90). -/
def execLdVxK (x : Reg) (s : State) : Result := complete .next false (s.enterWait x)

/-- `Fx15` LD DT, Vx (R161). -/
def execLdDtVx (x : Reg) (s : State) : Result := complete .next false (s.setDelay (s.reg x))

/-- `Fx18` LD ST, Vx (R162). -/
def execLdStVx (x : Reg) (s : State) : Result := complete .next false (s.setSound (s.reg x))

end Sys2Proof.Machine
end

