-- ==== Sys2Proof/Machine/Cycle.lean ====
section
/-! DEFINITION. One Step (spec/40_step_cycle.md R82): Halted, key-wait or Running; the fetch; and how an
instruction is placed where the next Step fetches it. -/

namespace Sys2Proof.Machine

/-- The two bytes of the instruction at `PC`, the high one first; `none` when `PC + 1` lies above 0xFFF
(R86). No alignment is asked (R48). -/
def State.fetch (s : State) : Option (List Byte) := s.loadBytes s.pc.toNat 2

/-- A Halted step (R83): no timer decrement, no key scan, no fetch, nothing changes and `FAULT` stays. The
Halted state is the fault outcome (decision D3; notes/assumptions/22.md). -/
def haltedStep (c : Cause) (s : State) : Result := .fault (c.fault (s.endStep false))

/-- A key-wait step (R84): the lowest key held goes to `V[WREG]` and the block is Running again; with none
held nothing changes. -/
def keyWaitStep (s : State) : Result :=
  match lowestHeld s.keys with
  | some k => .next ((s.setReg s.wreg (keyByte k)).leaveWait.endStep false)
  | none => .next (s.endStep false)

/-- Fetch, decode and execute (R82 lines 3b to 3f, R86, R87), on the state after the timer decrement. -/
def fetchExecute (s : State) : Result :=
  orRaise .fetchOob s s.fetch fun bytes =>
    match decode bytes with
    | .ok (i, _) => exec i s
    | .error (.unimplemented _) => raise .unimplOpcode s
    | .error .truncated => raise .fetchOob s

/-- A Running step: the timers first, then one instruction (R82 line 3, R85). -/
def runningStep (s : State) : Result := fetchExecute s.tickTimers

/-- One Step (R82): Halted is looked at first, then AwaitingKey, then the block runs (R180). -/
def oneStep (s : State) : Result :=
  match s.fault with
  | some c => haltedStep c s
  | none => if s.wait then keyWaitStep s else runningStep s

/-- Where an instruction is placed: at `PC`, or at the program base when no instruction fits at `PC`. -/
def probeAddress (s : State) : Word := if inMemory s.pc.toNat 2 then s.pc else BitVec.ofNat 16 Config.progBase

/-- Place a word where the next Step fetches it, big-endian at `PC` (R46), in a block that is Running; it
stands for the Load (notes/assumptions/21.md). -/
def placeInstruction (s : State) (op : Word) : State :=
  { s with
    pc := probeAddress s
    mem := s.mem.writeList (probeAddress s).toNat (wordBytes op)
    wait := false
    fault := none }

end Sys2Proof.Machine
end

