-- ==== Sys2Proof/Machine/Step.lean ====
section
/-! DEFINITION. The step the host runs (spec/40_step_cycle.md R82), and the host's probe. -/

namespace Sys2Proof.Machine

/-- One Step (R82), with the inputs of R81 taken from the state. -/
def step : State → Host.Outcome State Fault Refusal := oneStep

/-- The state with a table row's word placed where `step` fetches its next instruction. -/
def State.withFetchWord (s : State) (nbits w : Nat) : State := placeInstruction s (tableWord nbits w)

end Sys2Proof.Machine
end

