-- ==== Sys2Proof/Machine/Load.lean ====
section
/-! DEFINITION. The Load (spec/70_reset_and_hazards.md R191 to R193): the host's one way to place a program. -/

namespace Sys2Proof.Machine

/-- Load a program image (R192): up to 3584 bytes verbatim from 0x200 on, and nothing else changes. A longer
image is rejected with nothing copied and `ROM_TOO_LARGE` latched (R193, R178; notes/assumptions/28.md). A
second Load, or one after the first Step, is refused (R191, decision D16; notes/assumptions/5.md). -/
def load (rom : List Byte) (s : State) : Result :=
  match s.lifecycle with
  | .created =>
    if rom.length ≤ Config.romMax then
      .next { s with mem := s.mem.writeList Config.progBase rom, lifecycle := .loaded }
    else .fault (.romTooLarge { s.latch .romTooLarge with lifecycle := .loaded })
  | .loaded => .refused .loadOutOfOrder
  | .stepped => .refused .loadOutOfOrder

end Sys2Proof.Machine
end

