-- ==== Sys2Proof/Safety.lean ====
section
/-! DEFINITION. The terms claims are stated in: when the block is Running, waiting or Halted, what an
instruction leaves alone, which registers and which `PC` an instruction gives, when it faults, and the
invariant of a run. -/

namespace Sys2Proof.Machine

open Sys2Proof

/-- Halted: a cause is latched (R22, R83). A safe run has no Halted state. -/
def State.Halted (s : State) : Prop := s.fault ≠ none

/-- Running: not Halted and not waiting for a key (R90). -/
def State.Running (s : State) : Prop := s.fault = none ∧ s.wait = false

/-- AwaitingKey(WREG): not Halted and waiting (R90). -/
def State.AwaitingKey (s : State) : Prop := s.fault = none ∧ s.wait = true

/-- The parts of the spec's state (spec/10_state.md) but `PC`, which every instruction sets. -/
inductive Part where
  | regs
  | index
  | stack
  | delay
  | sound
  | memory
  | screen
  | keyWait
  | fault
  deriving DecidableEq, Repr

/-- Two states agree on a part: every register, every byte, every pixel, and so on. -/
def Part.Same (p : Part) (s t : State) : Prop :=
  match p with
  | .regs => ∀ r, t.reg r = s.reg r
  | .index => t.i = s.i
  | .stack => t.sp = s.sp ∧ ∀ k : Fin 16, t.stack[k] = s.stack[k]
  | .delay => t.dt = s.dt
  | .sound => t.st = s.st
  | .memory => ∀ a, t.byteAt a = s.byteAt a
  | .screen => ∀ y x, t.pixel y x = s.pixel y x
  | .keyWait => t.wait = s.wait ∧ t.wreg = s.wreg
  | .fault => t.fault = s.fault

/-- From `s` to `t` every part is unchanged but those listed: the frame of an instruction. -/
def KeptBut (written : List Part) (s t : State) : Prop := ∀ p, p ∉ written → p.Same s t

/-- The Step from `s` to `t` ended with output `changed` (R89) and used up its inputs (R23): the model's own
fields. -/
def StepEnds (changed : Bool) (s t : State) : Prop :=
  t.changed = changed ∧ t.lifecycle = .stepped ∧ t.inputs = s.inputs.tail ∧ t.stepCount = s.stepCount + 1

/-- The instructions that may write register `r`: as their destination `x`, as one of `V[0]`..`V[x]`, or as
the flag (R10, R26). -/
def Writes (i : Instr) (r : Reg) : Prop :=
  match i with
  | .ldImm x _ | .addImm x _ | .rnd x _ => r = x
  | .ldReg x _ | .orReg x _ | .andReg x _ | .xorReg x _ => r = x
  | .addReg x _ | .sub x _ | .shr x _ | .subn x _ | .shl x _ => r = x ∨ r = 15
  | .drw _ _ _ | .addI _ => r = 15
  | .ldVxDt x => r = x
  | .ldRegs x => r ≤ x
  | .cls | .ret | .jp _ | .call _ | .seImm _ _ | .sneImm _ _ | .seReg _ _ | .sneReg _ _ | .ldI _ | .jpV0 _ => False
  | .skp _ | .sknp _ | .ldVxK _ | .ldDtVx _ | .ldStVx _ | .ldF _ | .ldB _ | .stRegs _ => False

/-- The `PC` after an instruction that completes (R14, R88): the table of R14, with the conditions of the
skips. -/
def nextPc (i : Instr) (s : State) : Word :=
  match i with
  | .ret => s.stack[s.sp.val - 1]'(by have := s.sp.isLt; omega)
  | .jp addr | .call addr => addr.setWidth 16
  | .jpV0 addr => (s.reg 0).setWidth 16 + addr.setWidth 16
  | .seImm x kk => if s.reg x = kk then s.pc + 4 else s.pc + 2
  | .sneImm x kk => if s.reg x ≠ kk then s.pc + 4 else s.pc + 2
  | .seReg x y => if s.reg x = s.reg y then s.pc + 4 else s.pc + 2
  | .sneReg x y => if s.reg x ≠ s.reg y then s.pc + 4 else s.pc + 2
  | .skp x => if s.keys.getLsbD (s.reg x).toNat = true then s.pc + 4 else s.pc + 2
  | .sknp x => if s.keys.getLsbD (s.reg x).toNat = false then s.pc + 4 else s.pc + 2
  | .cls | .ldImm _ _ | .addImm _ _ | .ldReg _ _ | .orReg _ _ | .andReg _ _ | .xorReg _ _ => s.pc + 2
  | .addReg _ _ | .sub _ _ | .shr _ _ | .subn _ _ | .shl _ _ | .ldI _ | .rnd _ _ | .drw _ _ _ => s.pc + 2
  | .ldVxDt _ | .ldVxK _ | .ldDtVx _ | .ldStVx _ | .addI _ | .ldF _ | .ldB _ | .stRegs _ | .ldRegs _ => s.pc + 2

/-- The one fault an instruction can raise, and when (R171, R174 to R177, R180). -/
def faultOf (i : Instr) (s : State) : Option Cause :=
  match i with
  | .ret => if s.sp.val = 0 then some .stackUnderflow else none
  | .call _ => if s.sp.val = 16 then some .stackOverflow else none
  | .drw _ _ n => if n.val > 0 ∧ s.i.toNat + n.val - 1 > 0xFFF then some .dataOob else none
  | .ldB _ => if s.i.toNat + 2 > 0xFFF then some .dataOob else none
  | .stRegs x | .ldRegs x => if s.i.toNat + x.val > 0xFFF then some .dataOob else none
  | .skp x | .sknp x => if (s.reg x).toNat > 15 then some .keyOob else none
  | .cls | .jp _ | .seImm _ _ | .sneImm _ _ | .seReg _ _ | .ldImm _ _ | .addImm _ _ | .ldReg _ _ => none
  | .orReg _ _ | .andReg _ _ | .xorReg _ _ | .addReg _ _ | .sub _ _ | .shr _ _ | .subn _ _ | .shl _ _ => none
  | .sneReg _ _ | .ldI _ | .jpV0 _ | .rnd _ _ | .ldVxDt _ | .ldVxK _ | .ldDtVx _ | .ldStVx _ | .addI _ | .ldF _ => none

/-- The bytes an instruction stores to: `I`, `I+1`, `I+2` for `Fx33`, `I`..`I+x` for `Fx55`, none for the
others (R42, R143, R144). -/
def Stores (i : Instr) (s : State) (a : Nat) : Prop :=
  match i with
  | .ldB _ => s.i.toNat ≤ a ∧ a ≤ s.i.toNat + 2
  | .stRegs x => s.i.toNat ≤ a ∧ a ≤ s.i.toNat + x.val
  | .cls | .ret | .jp _ | .call _ | .seImm _ _ | .sneImm _ _ | .seReg _ _ | .ldImm _ _ | .addImm _ _ => False
  | .ldReg _ _ | .orReg _ _ | .andReg _ _ | .xorReg _ _ | .addReg _ _ | .sub _ _ | .shr _ _ | .subn _ _ => False
  | .shl _ _ | .sneReg _ _ | .ldI _ | .jpV0 _ | .rnd _ _ | .drw _ _ _ | .skp _ | .sknp _ | .ldVxDt _ => False
  | .ldVxK _ | .ldDtVx _ | .ldStVx _ | .addI _ | .ldF _ | .ldRegs _ => False

/-- The sprite of a `Dxyn` drawn at (`vx`, `vy`) sets a bit on the pixel at row `y`, column `x`: some row of
the `n`, some bit of the 8, lands there, both axes wrapping, and is 1 in memory at `I + row` (R151). -/
def SpriteCovers (s : State) (vx vy : Byte) (n : Nat) (y : Row) (x : Col) : Prop :=
  ∃ row < n, ∃ bit < 8, (vy.toNat + row) % 32 = y.val ∧ (vx.toNat + bit) % 64 = x.val ∧
    (s.byteAt (s.i.toNat + row)).getLsbD (7 - bit) = true

/-- The opcode at `PC`: the byte at `PC` above the byte at `PC + 1` (R46, R61). -/
def opcodeAt (s : State) : Word :=
  (s.byteAt s.pc.toNat).setWidth 16 <<< 8 ||| (s.byteAt (s.pc.toNat + 1)).setWidth 16

/-- A timer's value after one decrement, with its floor at zero (R85). -/
def oneLess (b : Byte) : Byte := BitVec.ofNat 8 (b.toNat - 1)

/-- The instruction wrote `result` to `V[x]` and nothing else, and went on to the next one: no other register,
no flag, no other part (R120 to R125, R131, R160). -/
def SetsRegister (x : Reg) (result : Byte) (s t : State) : Prop :=
  t.reg x = result ∧ (∀ r, r ≠ x → t.reg r = s.reg r) ∧ t.pc = s.pc + 2 ∧ KeptBut [.regs] s t ∧
    StepEnds false s t

/-- The instruction wrote `flag` to `V[15]` and then `result` to `V[x]`, nothing else, and went on to the next
one: with `x = 15` the result stays (R132, decision D8). -/
def SetsFlagged (x : Reg) (flag result : Byte) (s t : State) : Prop :=
  t.reg x = result ∧ (x ≠ 15 → t.reg 15 = flag) ∧ (∀ r, r ≠ x → r ≠ 15 → t.reg r = s.reg r) ∧
    t.pc = s.pc + 2 ∧ KeptBut [.regs] s t ∧ StepEnds false s t

/-- The instruction moved `PC` to `target` and changed nothing else (R101, R103, R110 to R113, R163, R164). -/
def OnlyMovesPc (target : Word) (s t : State) : Prop :=
  t.pc = target ∧ KeptBut [] s t ∧ StepEnds false s t

/-- The invariant of a run: memory is in canonical form, `PC` is at most 0x10FE (R13), every stack slot is
at most 0x1000 (R100), and no cause is latched (a Halted state is no next state). -/
def Inv (s : State) : Prop :=
  s.mem.wf = true ∧ s.pc.toNat ≤ 0x10FE ∧ (∀ k : Fin 16, s.stack[k].toNat ≤ 0x1000) ∧ s.fault = none

end Sys2Proof.Machine
end

