-- ==== Sys2Proof/Certificates/Slice0/Obligations.lean ====
section
/-! DEFINITION. The statements for the provers. Each docstring names the rule of spec/ it formalises, and says
so where a clause rests on a decision of the spec or a choice of the model. -/

open Sys2Proof Sys2Proof.Machine

/-! ### Encoding (spec/30_encoding.md) -/

/-- Decoding the bytes of an encoded instruction gives the instruction back, with every operand at every value,
and leaves the bytes after it (R60 to R66, R68). -/
def Obligations.DecodeOfEncodeGivesTheInstruction : Prop :=
  ∀ (i : Instr) (rest : List Byte), decode (wordBytes (encode i) ++ rest) = .ok (i, rest)

/-- A word decodes exactly when it matches a row of the opcode map, and decoding loses none of its bits
(R65, R67; that patterns are matched literally is decision D14, notes/assumptions/15.md). -/
def Obligations.WordsDecodeExactlyWhenTheyMatchARow : Prop :=
  ∀ op : Word,
    (legalOpcode op = true → ∃ i, decodeWord op = some i ∧ encode i = op) ∧
    (legalOpcode op = false → decodeWord op = none)

/-- No word matches two rows of the opcode map (R65, a sentence the spec marks as derived). -/
def Obligations.OpcodeRowsAreDisjoint : Prop :=
  opcodeMap.Pairwise fun r q => ∀ op : Word, ¬ (r.accepts op = true ∧ q.accepts op = true)

/-- A few words written out from the opcode map decode to the instructions they stand for, and a few illegal
ones to none (R66, R67; vectors T-X1 to T-X14 of spec/95_test_vectors.md; that patterns are matched literally, so that
the illegal ones are illegal, is decision D14, notes/assumptions/15.md). -/
def Obligations.SampleWordsDecode : Prop :=
  decodeWord 0x6A3C = some (.ldImm 0xA 0x3C) ∧ decodeWord 0xD125 = some (.drw 1 2 5) ∧
  decodeWord 0x00E0 = some .cls ∧ decodeWord 0x8ABE = some (.shl 0xA 0xB) ∧ decodeWord 0xFF65 = some (.ldRegs 0xF) ∧
  decodeWord 0xE000 = none ∧ decodeWord 0x0000 = none ∧ decodeWord 0x01E0 = none ∧ decodeWord 0x5121 = none ∧
  decodeWord 0x8128 = none ∧ decodeWord 0x912F = none ∧ decodeWord 0xE19F = none ∧ decodeWord 0xF175 = none

/-! ### The Step (spec/40_step_cycle.md) -/

/-- A Running Step fetches the opcode at `PC`, high byte first, faults if `PC + 1` lies above 0xFFF or if no row
matches, and otherwise executes the decoded instruction on the state after the timer decrement, with nothing
added around it (R86, R87). -/
def Obligations.StepRunsTheDecodedInstruction : Prop :=
  ∀ s : State, s.Running →
    (s.pc.toNat + 1 > 0xFFF → ∃ h, step s = .fault (.fetchOob h)) ∧
    (s.pc.toNat + 1 ≤ 0xFFF →
      (∀ i, decodeWord (opcodeAt s) = some i → step s = exec i s.tickTimers) ∧
      (decodeWord (opcodeAt s) = none → ∃ h, step s = .fault (.unimplOpcode h)))

/-- In every Running Step each timer is one less, with its floor at zero: whatever instruction completes, but where
it writes the timer (`Fx15` and `Fx18` leave the register's value, not decremented), and also when the Step faults,
in the Halted state the fault carries (R85, R161, R162; the cadence is decision D18, notes/assumptions/17.md; that a
faulting Step keeps the decrement, and that its Halted state is carried by the fault, are decisions D4 and D3,
notes/assumptions/6.md). -/
def Obligations.TimersTickInEveryRunningStep : Prop :=
  ∀ s : State, s.Running →
    (∀ (t : State) (i : Instr), decodeWord (opcodeAt s) = some i → step s = .next t →
      ((∀ x, i ≠ .ldDtVx x) → t.dt = oneLess s.dt) ∧ ((∀ x, i ≠ .ldStVx x) → t.st = oneLess s.st) ∧
      (∀ x, i = .ldDtVx x → t.dt = s.reg x) ∧ (∀ x, i = .ldStVx x → t.st = s.reg x)) ∧
    (∀ f : Fault, step s = .fault f → f.halted.dt = oneLess s.dt ∧ f.halted.st = oneLess s.st)

/-- A key-wait Step with a key held writes the lowest held key's number to `V[WREG]`, returns to Running, and
changes nothing else: no timer, no `PC`, no fetch (R84; that `changed` is 0 is decision D17). -/
def Obligations.KeyWaitTakesTheLowestHeldKey : Prop :=
  ∀ (s : State) (k : Key), s.AwaitingKey → s.keys.getLsbD k.val = true → (∀ j < k, s.keys.getLsbD j.val = false) →
    ∃ t, step s = .next t ∧ t.reg s.wreg = BitVec.ofNat 8 k.val ∧ (∀ r, r ≠ s.wreg → t.reg r = s.reg r) ∧
      t.wait = false ∧ t.wreg = s.wreg ∧ t.pc = s.pc ∧ KeptBut [.regs, .keyWait] s t ∧ StepEnds false s t

/-- A key-wait Step with no key held changes nothing (R84, R90; that `changed` is 0 is decision D17). -/
def Obligations.KeyWaitWithoutAKeyChangesNothing : Prop :=
  ∀ s : State, s.AwaitingKey → (∀ k : Key, s.keys.getLsbD k.val = false) →
    ∃ t, step s = .next t ∧ OnlyMovesPc s.pc s t

/-- A Step of a Halted block answers a fault with the latched cause, and the state it carries is the state
before, with `changed = 0` (R83; that a Halted state is the fault outcome is decision D3,
notes/assumptions/6.md and 22.md). -/
def Obligations.HaltedStepChangesNothing : Prop :=
  ∀ (s : State) (c : Cause), s.fault = some c →
    ∃ f, step s = .fault f ∧ f.cause = c ∧ f.halted.pc = s.pc ∧ KeptBut [] s f.halted ∧ f.halted.changed = false

/-- A fault in a Running Step latches its cause and keeps the timer decrement; nothing else changes, and `PC`
stays at the instruction (R91, R181; decisions D3 and D4, notes/assumptions/6.md). -/
def Obligations.RunningFaultsArePrecise : Prop :=
  ∀ (s : State) (f : Fault), s.Running → step s = .fault f →
    f.halted.fault = some f.cause ∧ f.halted.pc = s.pc ∧ f.halted.dt = oneLess s.dt ∧ f.halted.st = oneLess s.st ∧
      KeptBut [.delay, .sound, .fault] s f.halted ∧ f.halted.changed = false

/-- Every instruction answers a next state but under its one fault condition, and there it faults with that
cause (R171, R180; the conditions of `Dxyn`, `Fx33`, `Fx55`, `Fx65`, `Ex9E`, `ExA1` rest on decisions D4, D5 and
D6, notes/assumptions/13.md and 14.md). -/
def Obligations.InstructionsFaultExactlyAsListed : Prop :=
  ∀ (i : Instr) (s : State),
    match faultOf i s with
    | none => ∃ t, exec i s = .next t
    | some c => ∃ f, exec i s = .fault f ∧ f.cause = c

/-! ### Reset and the invariant of a run -/

/-- After reset every register, timer, stack slot and pixel is 0, `PC` is 0x200, the font table stands at
0x000..0x04F and 0 elsewhere, the block is Running and no cause is latched (R190; the font's bytes are the
parameter `FONT`, notes/assumptions/7.md). -/
def Obligations.ResetHoldsTheStatedValues : Prop :=
  (∀ r, State.reset.reg r = 0) ∧ State.reset.i = 0 ∧ State.reset.pc = 0x200 ∧ State.reset.sp = 0 ∧
  (∀ k : Fin 16, State.reset.stack[k] = 0) ∧ State.reset.dt = 0 ∧ State.reset.st = 0 ∧
  (∀ a < 80, fontTable[a]? = some (State.reset.byteAt a)) ∧ (∀ a, 80 ≤ a → State.reset.byteAt a = 0) ∧
  (∀ y x, State.reset.pixel y x = false) ∧ State.reset.wait = false ∧ State.reset.wreg = 0 ∧
  State.reset.fault = none

/-- The state after reset meets the invariant of a run. -/
def Obligations.ResetMeetsTheInvariant : Prop := Inv State.reset

/-- Every Step that answers a next state keeps the invariant: memory stays in canonical form, `PC` stays at most
0x10FE and every return address at most 0x1000 (R13, sentences the spec marks as derived, and R100), and no next
state is Halted (decision D3). -/
def Obligations.EveryStepKeepsTheInvariant : Prop :=
  ∀ s t : State, Inv s → step s = .next t → Inv t

/-! ### Whole-machine rules -/

/-- An instruction changes no register but its destination, the registers up to `x` that `Fx65` loads, and the
flag of a flag producer (R10, R26). -/
def Obligations.RegistersChangeOnlyAsListed : Prop :=
  ∀ (i : Instr) (s t : State) (r : Reg), exec i s = .next t → ¬ Writes i r → t.reg r = s.reg r

/-- After a flag producer `VF` is 0 or 1, unless `VF` was also the destination of the result (R26; the case of
`x = 15` is decision D8, notes/assumptions/10.md). -/
def Obligations.FlagsAreZeroOrOne : Prop :=
  ∀ (s t : State) (i : Instr), exec i s = .next t →
    ((∃ x y, x ≠ 15 ∧ (i = .addReg x y ∨ i = .sub x y ∨ i = .shr x y ∨ i = .subn x y ∨ i = .shl x y)) ∨
      (∃ x y n, i = .drw x y n) ∨ (∃ x, i = .addI x)) →
    t.reg 15 = 0 ∨ t.reg 15 = 1

/-- Only `Annn`, `Fx1E` and `Fx29` write `I`; no memory access moves it (R12, decision D25,
notes/assumptions/18.md). -/
def Obligations.OnlyIndexInstructionsWriteI : Prop :=
  ∀ (i : Instr) (s t : State), exec i s = .next t →
    (∀ a, i ≠ .ldI a) → (∀ x, i ≠ .addI x) → (∀ x, i ≠ .ldF x) → t.i = s.i

/-- Only `Fx33` and `Fx55` write memory, and only the bytes from `I` on that they store to (R42, R47). -/
def Obligations.OnlyStoredBytesChange : Prop :=
  ∀ (i : Instr) (s t : State) (a : Nat), exec i s = .next t → ¬ Stores i s a → t.byteAt a = s.byteAt a

/-- Only `00E0` and `Dxyn` change a pixel, and `changed` is 1 exactly for them (R20, R89; `changed` for the
others is decision D17, notes/assumptions/4.md). -/
def Obligations.OnlyDisplayInstructionsTouchTheScreen : Prop :=
  ∀ (i : Instr) (s t : State), exec i s = .next t →
    ((i = .cls ∨ ∃ x y n, i = .drw x y n) → t.changed = true) ∧
    (¬ (i = .cls ∨ ∃ x y n, i = .drw x y n) → t.changed = false ∧ ∀ y x, t.pixel y x = s.pixel y x)

/-- Only `2nnn` and `00EE` touch the stack or its pointer (R15, R54). -/
def Obligations.OnlyCallAndReturnTouchTheStack : Prop :=
  ∀ (i : Instr) (s t : State), exec i s = .next t → (∀ a, i ≠ .call a) → i ≠ .ret →
    t.sp = s.sp ∧ ∀ k : Fin 16, t.stack[k] = s.stack[k]

/-- Only `Fx0A` enters the wait, and no instruction that completes latches a cause (R21, R90, R22). -/
def Obligations.OnlyWaitForKeyEntersTheWait : Prop :=
  ∀ (i : Instr) (s t : State), exec i s = .next t →
    ((∀ x, i ≠ .ldVxK x) → t.wait = s.wait ∧ t.wreg = s.wreg) ∧ t.fault = s.fault

/-- How each instruction moves `PC` when it completes; and that no fault, no key-wait Step and no Halted Step moves
it (R14; that a fault is an outcome which carries the Halted state, and that this state keeps `PC`, are decisions D3
and D4, notes/assumptions/6.md). -/
def Obligations.ProgramCounterMovesAsListed : Prop :=
  (∀ (i : Instr) (s t : State), exec i s = .next t → t.pc = nextPc i s) ∧
  (∀ (i : Instr) (s : State) (f : Fault), exec i s = .fault f → f.halted.pc = s.pc) ∧
  (∀ (s : State) (f : Fault), step s = .fault f → f.halted.pc = s.pc) ∧
  (∀ s t : State, s.AwaitingKey → step s = .next t → t.pc = s.pc)

/-- The random byte of a Step reaches only `Cxkk`, and its key snapshot only `Ex9E` and `ExA1`: every other
instruction answers the same whatever they are (R81, R165; decisions D7 and D28, notes/assumptions/1.md to
3.md). -/
def Obligations.InputsReachOnlyTheirInstructions : Prop :=
  ∀ (i : Instr) (s : State) (a b : StepInput) (rest : List StepInput),
    ((∀ x kk, i ≠ .rnd x kk) → a.keys = b.keys →
      exec i { s with inputs := a :: rest } = exec i { s with inputs := b :: rest }) ∧
    ((∀ x, i ≠ .skp x) → (∀ x, i ≠ .sknp x) → a.rnd = b.rnd →
      exec i { s with inputs := a :: rest } = exec i { s with inputs := b :: rest })

/-- Drawing the same sprite twice at the same coordinates restores every pixel, and the second draw's `VF` is 1
exactly when the first left a pixel of the sprite lit (property S5 of spec/95_test_vectors.md, R151). With `x` or
`y` = 15 the first draw's flag moves the second draw's coordinates, so those forms are not the same place. -/
def Obligations.DrawingTwiceRestoresTheScreen : Prop :=
  ∀ (s t u : State) (x y : Reg) (n : Fin 16), x ≠ 15 → y ≠ 15 →
    exec (.drw x y n) s = .next t → exec (.drw x y n) t = .next u →
    (∀ r c, u.pixel r c = s.pixel r c) ∧
    (u.reg 15 = 1 ↔ ∃ r c, SpriteCovers s (s.reg x) (s.reg y) n.val r c ∧ t.pixel r c = true) ∧
    (u.reg 15 = 0 ∨ u.reg 15 = 1)

/-! ### Control transfer (spec/41_flow.md) -/

/-- `00EE` pops the return address into `PC`, the slot keeps its value, and on an empty stack it faults with
`SP` and `PC` as they were (R100; what the Halted state holds, and that the fault carries it, are decisions D4 and
D3, notes/assumptions/6.md). -/
def Obligations.ReturnPopsTheStack : Prop :=
  decodeWord 0x00EE = some .ret ∧
  ∀ s : State,
    (s.sp.val > 0 → ∃ t, exec .ret s = .next t ∧ t.sp.val = s.sp.val - 1 ∧
      (∀ k : Fin 16, k.val + 1 = s.sp.val → t.pc = s.stack[k]) ∧ (∀ k : Fin 16, t.stack[k] = s.stack[k]) ∧
      KeptBut [.stack] s t ∧ StepEnds false s t) ∧
    (s.sp.val = 0 → ∃ h, exec .ret s = .fault (.stackUnderflow h) ∧ h.sp.val = 0 ∧ h.pc = s.pc)

/-- `1nnn` sets `PC` to the zero-extended address and changes nothing else (R101). -/
def Obligations.JumpGoesToTheAddress : Prop :=
  ∀ (addr : Addr) (s : State), decodeWord (0x1#4 ++ addr) = some (.jp addr) ∧
    ∃ t, exec (.jp addr) s = .next t ∧ OnlyMovesPc (addr.setWidth 16) s t

/-- `2nnn` pushes `PC + 2`, raises `SP` and jumps; with all 16 slots in use it faults with no slot written and
`SP` and `PC` as they were (R102; what the Halted state holds, and that the fault carries it, are decisions D4 and
D3, notes/assumptions/6.md). -/
def Obligations.CallPushesTheReturnAddress : Prop :=
  ∀ (addr : Addr) (s : State), decodeWord (0x2#4 ++ addr) = some (.call addr) ∧
    (s.sp.val < 16 → ∃ t, exec (.call addr) s = .next t ∧ t.pc = addr.setWidth 16 ∧ t.sp.val = s.sp.val + 1 ∧
      (∀ k : Fin 16, k.val = s.sp.val → t.stack[k] = s.pc + 2) ∧
      (∀ k : Fin 16, k.val ≠ s.sp.val → t.stack[k] = s.stack[k]) ∧ KeptBut [.stack] s t ∧ StepEnds false s t) ∧
    (s.sp.val = 16 → ∃ h, exec (.call addr) s = .fault (.stackOverflow h) ∧ (∀ k : Fin 16, h.stack[k] = s.stack[k]) ∧
      h.sp.val = 16 ∧ h.pc = s.pc)

/-- `Bnnn` sets `PC` to `V[0] + addr` with no reduction mod 4096, and changes nothing else (R103). -/
def Obligations.JumpWithOffsetAddsV0 : Prop :=
  ∀ (addr : Addr) (s : State), decodeWord (0xB#4 ++ addr) = some (.jpV0 addr) ∧
    ∃ t, exec (.jpV0 addr) s = .next t ∧ t.pc.toNat = (s.reg 0).toNat + addr.toNat ∧ OnlyMovesPc t.pc s t

/-! ### Skips (spec/42_skip.md) -/

/-- `3xkk` and `4xkk` skip the next two bytes exactly if `V[x]` equals, or differs from, `kk`; they write nothing
and never fault (R110, R111). -/
def Obligations.SkipsOnAnImmediate : Prop :=
  ∀ (x : Reg) (kk : Byte) (s : State),
    decodeWord (0x3#4 ++ nibbleOf x ++ kk) = some (.seImm x kk) ∧
    decodeWord (0x4#4 ++ nibbleOf x ++ kk) = some (.sneImm x kk) ∧
    (∃ t, exec (.seImm x kk) s = .next t ∧ OnlyMovesPc (if s.reg x = kk then s.pc + 4 else s.pc + 2) s t) ∧
    (∃ t, exec (.sneImm x kk) s = .next t ∧ OnlyMovesPc (if s.reg x = kk then s.pc + 2 else s.pc + 4) s t)

/-- `5xy0` and `9xy0` skip the next two bytes exactly if `V[x]` equals, or differs from, `V[y]`; they write
nothing and never fault (R112, R113); with another last nibble the word is illegal (decision D14,
notes/assumptions/15.md). -/
def Obligations.SkipsOnTwoRegisters : Prop :=
  ∀ (x y : Reg) (s : State),
    decodeWord (0x5#4 ++ nibbleOf x ++ nibbleOf y ++ 0x0#4) = some (.seReg x y) ∧
    decodeWord (0x9#4 ++ nibbleOf x ++ nibbleOf y ++ 0x0#4) = some (.sneReg x y) ∧
    (∀ d : Nibble, d ≠ 0 → decodeWord (0x5#4 ++ nibbleOf x ++ nibbleOf y ++ d) = none ∧
      decodeWord (0x9#4 ++ nibbleOf x ++ nibbleOf y ++ d) = none) ∧
    (∃ t, exec (.seReg x y) s = .next t ∧ OnlyMovesPc (if s.reg x = s.reg y then s.pc + 4 else s.pc + 2) s t) ∧
    (∃ t, exec (.sneReg x y) s = .next t ∧ OnlyMovesPc (if s.reg x = s.reg y then s.pc + 2 else s.pc + 4) s t)

/-! ### Arithmetic and logic (spec/43_alu.md) -/

/-- `6xkk` and `8xy0` load a register from an immediate or a register, with no flag (R120, R122). -/
def Obligations.LoadsWriteOneRegister : Prop :=
  ∀ (x y : Reg) (kk : Byte) (s : State),
    decodeWord (0x6#4 ++ nibbleOf x ++ kk) = some (.ldImm x kk) ∧
    decodeWord (0x8#4 ++ nibbleOf x ++ nibbleOf y ++ 0x0#4) = some (.ldReg x y) ∧
    (∃ t, exec (.ldImm x kk) s = .next t ∧ SetsRegister x kk s t) ∧
    (∃ t, exec (.ldReg x y) s = .next t ∧ SetsRegister x (s.reg y) s t)

/-- `7xkk` adds the immediate mod 256 and touches no flag (R121). -/
def Obligations.AddImmediateWrapsWithoutAFlag : Prop :=
  ∀ (x : Reg) (kk : Byte) (s : State), decodeWord (0x7#4 ++ nibbleOf x ++ kk) = some (.addImm x kk) ∧
    ∃ t, exec (.addImm x kk) s = .next t ∧ (t.reg x).toNat = ((s.reg x).toNat + kk.toNat) % 256 ∧
      SetsRegister x (t.reg x) s t

/-- `8xy1`, `8xy2`, `8xy3` write the bitwise or, and, exclusive or, and leave `VF` alone (R123, R124, R125). -/
def Obligations.LogicLeavesTheFlagAlone : Prop :=
  ∀ (x y : Reg) (s : State),
    decodeWord (0x8#4 ++ nibbleOf x ++ nibbleOf y ++ 0x1#4) = some (.orReg x y) ∧
    decodeWord (0x8#4 ++ nibbleOf x ++ nibbleOf y ++ 0x2#4) = some (.andReg x y) ∧
    decodeWord (0x8#4 ++ nibbleOf x ++ nibbleOf y ++ 0x3#4) = some (.xorReg x y) ∧
    (∃ t, exec (.orReg x y) s = .next t ∧ SetsRegister x (s.reg x ||| s.reg y) s t) ∧
    (∃ t, exec (.andReg x y) s = .next t ∧ SetsRegister x (s.reg x &&& s.reg y) s t) ∧
    (∃ t, exec (.xorReg x y) s = .next t ∧ SetsRegister x (s.reg x ^^^ s.reg y) s t)

/-- `8xy4` writes the sum mod 256, and first the carry to `VF`: 1 exactly if the true sum is above 255 (R126,
R133). That the operands are read first, and with `x = 15` the sum stays, is decision D8
(notes/assumptions/10.md). -/
def Obligations.AddSetsTheCarry : Prop :=
  ∀ (x y : Reg) (s : State), ∃ t, exec (.addReg x y) s = .next t ∧
    SetsFlagged x (if (s.reg x).toNat + (s.reg y).toNat > 255 then 1 else 0)
      (BitVec.ofNat 8 (((s.reg x).toNat + (s.reg y).toNat) % 256)) s t

/-- `8xy5` and `8xy7` write the wrapping difference, and first `VF`: 1 exactly if the minuend is strictly greater,
so equal operands give 0 (R127, R129, R204). The forms with register 15 rest on decision D8
(notes/assumptions/10.md). -/
def Obligations.SubtractsSetTheStrictFlag : Prop :=
  ∀ (x y : Reg) (s : State),
    (∃ t, exec (.sub x y) s = .next t ∧
      SetsFlagged x (if (s.reg x).toNat > (s.reg y).toNat then 1 else 0) (s.reg x - s.reg y) s t) ∧
    (∃ t, exec (.subn x y) s = .next t ∧
      SetsFlagged x (if (s.reg y).toNat > (s.reg x).toNat then 1 else 0) (s.reg y - s.reg x) s t)

/-- `8xy6` and `8xyE` shift `V[x]` by one, whatever `y` is, and first put the bit shifted out in `VF` as 0 or 1
(R128, R130, R68; `VF` normalised by decision D19, notes/assumptions/18.md). The form `x = 15` rests on decision
D8 (notes/assumptions/10.md). -/
def Obligations.ShiftsPutTheBitInTheFlag : Prop :=
  ∀ (x y : Reg) (s : State),
    (∃ t, exec (.shr x y) s = .next t ∧
      SetsFlagged x (BitVec.ofNat 8 ((s.reg x).toNat % 2)) (BitVec.ofNat 8 ((s.reg x).toNat / 2)) s t) ∧
    (∃ t, exec (.shl x y) s = .next t ∧
      SetsFlagged x (BitVec.ofNat 8 ((s.reg x).toNat / 128)) (BitVec.ofNat 8 ((s.reg x).toNat * 2 % 256)) s t)

/-- `Cxkk` writes the random byte of its own Step under the mask `kk`, with no flag (R131). The random byte is a
free input: the statement holds for every value of it. -/
def Obligations.RandomByteUnderTheMask : Prop :=
  ∀ (x : Reg) (kk : Byte) (s : State), decodeWord (0xC#4 ++ nibbleOf x ++ kk) = some (.rnd x kk) ∧
    (∃ t, exec (.rnd x kk) s = .next t ∧ SetsRegister x (s.rnd &&& kk) s t) ∧
    ∀ (a : StepInput) (rest : List StepInput), s.inputs = a :: rest → s.rnd = a.rnd

/-! ### Index register and memory transfer (spec/44_index_memory.md) -/

/-- `Annn` sets `I` to the zero-extended address and changes nothing else (R140). -/
def Obligations.LoadIndexSetsTheAddress : Prop :=
  ∀ (addr : Addr) (s : State), decodeWord (0xA#4 ++ addr) = some (.ldI addr) ∧
    ∃ t, exec (.ldI addr) s = .next t ∧ t.i = addr.setWidth 16 ∧ t.pc = s.pc + 2 ∧ KeptBut [.index] s t ∧
      StepEnds false s t

/-- `Fx1E` adds `V[x]` to `I` mod 2^16 and sets `VF` to 1 exactly if the unreduced sum is above 0x0FFF (R141; the
limit and the reduction are decision D10, notes/assumptions/8.md; the form `x = 15` is decision D8). -/
def Obligations.AddIndexSetsTheRangeFlag : Prop :=
  ∀ (x : Reg) (s : State), ∃ t, exec (.addI x) s = .next t ∧
    t.i.toNat = (s.i.toNat + (s.reg x).toNat) % 65536 ∧
    t.reg 15 = (if s.i.toNat + (s.reg x).toNat > 0x0FFF then 1 else 0) ∧ (∀ r, r ≠ 15 → t.reg r = s.reg r) ∧
    t.pc = s.pc + 2 ∧ KeptBut [.regs, .index] s t ∧ StepEnds false s t

/-- `Fx29` sets `I` to five times the whole byte `V[x]`, never wrapping at 8 bits (R142; decision D11,
notes/assumptions/12.md). -/
def Obligations.FontAddressIsFiveTimesTheByte : Prop :=
  ∀ (x : Reg) (s : State), ∃ t, exec (.ldF x) s = .next t ∧ t.i.toNat = (s.reg x).toNat * 5 ∧ t.pc = s.pc + 2 ∧
    KeptBut [.index] s t ∧ StepEnds false s t

/-- `Fx33` stores the three decimal digits of `V[x]` at `I`, `I+1`, `I+2`, and no other byte, while `I + 2` is
inside memory (R143; that nothing is stored otherwise is decision D4, notes/assumptions/13.md). -/
def Obligations.BcdStoresThreeDigits : Prop :=
  ∀ (x : Reg) (s : State), s.i.toNat + 2 ≤ 0xFFF → ∃ t, exec (.ldB x) s = .next t ∧
    (t.byteAt s.i.toNat).toNat = (s.reg x).toNat / 100 ∧
    (t.byteAt (s.i.toNat + 1)).toNat = (s.reg x).toNat / 10 % 10 ∧
    (t.byteAt (s.i.toNat + 2)).toNat = (s.reg x).toNat % 10 ∧
    (∀ a, a < s.i.toNat ∨ s.i.toNat + 2 < a → t.byteAt a = s.byteAt a) ∧
    t.pc = s.pc + 2 ∧ KeptBut [.memory] s t ∧ StepEnds false s t

/-- `Fx55` stores `V[k]` at `I + k` for every `k` up to `x`, and no other byte, and leaves `I` and the registers
alone, while `I + x` is inside memory (R144; decisions D4 and D25, notes/assumptions/13.md and 18.md). -/
def Obligations.RegistersAreStoredFromI : Prop :=
  ∀ (x : Reg) (s : State), s.i.toNat + x.val ≤ 0xFFF → ∃ t, exec (.stRegs x) s = .next t ∧
    (∀ k : Reg, k ≤ x → t.byteAt (s.i.toNat + k.val) = s.reg k) ∧
    (∀ a, a < s.i.toNat ∨ s.i.toNat + x.val < a → t.byteAt a = s.byteAt a) ∧
    t.pc = s.pc + 2 ∧ KeptBut [.memory] s t ∧ StepEnds false s t

/-- `Fx65` loads `V[k]` from `I + k` for every `k` up to `x`, and leaves the registers above `x`, `I` and memory
alone, while `I + x` is inside memory (R145; decisions D4 and D25, notes/assumptions/13.md and 18.md). -/
def Obligations.RegistersAreLoadedFromI : Prop :=
  ∀ (x : Reg) (s : State), s.i.toNat + x.val ≤ 0xFFF → ∃ t, exec (.ldRegs x) s = .next t ∧
    (∀ k : Reg, k ≤ x → t.reg k = s.byteAt (s.i.toNat + k.val)) ∧ (∀ k : Reg, ¬ k ≤ x → t.reg k = s.reg k) ∧
    t.pc = s.pc + 2 ∧ KeptBut [.regs] s t ∧ StepEnds false s t

/-- `Dxyn`, `Fx33`, `Fx55` and `Fx65` raise `DATA_OOB` exactly when the highest address they would touch lies above
0xFFF, the sum being formed without wrap-around (R174; that the sum does not wrap is decision D5, and that the
highest address decides before any access is decision D4, notes/assumptions/13.md). -/
def Obligations.DataAccessAboveMemoryFaults : Prop :=
  ∀ (x y : Reg) (n : Fin 16) (s : State),
    ((∃ h, exec (.drw x y n) s = .fault (.dataOob h)) ↔ n.val > 0 ∧ s.i.toNat + n.val - 1 > 0xFFF) ∧
    ((∃ h, exec (.ldB x) s = .fault (.dataOob h)) ↔ s.i.toNat + 2 > 0xFFF) ∧
    ((∃ h, exec (.stRegs x) s = .fault (.dataOob h)) ↔ s.i.toNat + x.val > 0xFFF) ∧
    ((∃ h, exec (.ldRegs x) s = .fault (.dataOob h)) ↔ s.i.toNat + x.val > 0xFFF)

/-! ### Display (spec/45_display.md) -/

/-- `00E0` turns every pixel off, returns `changed = 1`, and writes nothing else (R150). -/
def Obligations.ClearTurnsEveryPixelOff : Prop :=
  decodeWord 0x00E0 = some .cls ∧
  ∀ s : State, ∃ t, exec .cls s = .next t ∧ (∀ y x, t.pixel y x = false) ∧ t.pc = s.pc + 2 ∧
    KeptBut [.screen] s t ∧ StepEnds true s t

/-- `Dxyn` XORs the sprite's bits onto the screen, both axes wrapping, sets `VF` to whether it met a lit pixel, and
returns `changed = 1`; with `n = 0` it reads nothing and completes whatever `I` is (R151, R152; the collision
starting at 0 is decision D9, notes/assumptions/11.md; `x` or `y` = 15 is decision D8). -/
def Obligations.DrawXorsTheSprite : Prop :=
  ∀ (x y : Reg) (n : Fin 16) (s : State), (n.val = 0 ∨ s.i.toNat + n.val - 1 ≤ 0xFFF) →
    ∃ t, exec (.drw x y n) s = .next t ∧
      (∀ r c, SpriteCovers s (s.reg x) (s.reg y) n.val r c → t.pixel r c = !s.pixel r c) ∧
      (∀ r c, ¬ SpriteCovers s (s.reg x) (s.reg y) n.val r c → t.pixel r c = s.pixel r c) ∧
      ((∃ r c, SpriteCovers s (s.reg x) (s.reg y) n.val r c ∧ s.pixel r c = true) → t.reg 15 = 1) ∧
      ((¬ ∃ r c, SpriteCovers s (s.reg x) (s.reg y) n.val r c ∧ s.pixel r c = true) → t.reg 15 = 0) ∧
      (∀ r, r ≠ 15 → t.reg r = s.reg r) ∧ t.pc = s.pc + 2 ∧ KeptBut [.regs, .screen] s t ∧ StepEnds true s t

/-- The pixel read port gives the pixel at column `x`, row `y`, by coordinates or by linear index, and is refused
outside the grid (R55; the refusal is decision D1, notes/assumptions/24.md). -/
def Obligations.PixelPortReadsTheScreen : Prop :=
  ∀ s : State,
    (∀ (y : Row) (x : Col), pixelPort x.val y.val s = .ok (s.pixel y x) ∧
      pixelPortLinear (y.val * 64 + x.val) s = .ok (s.pixel y x)) ∧
    (∀ x y : Nat, 64 ≤ x ∨ 32 ≤ y → pixelPort x y s = .error .pixelOutOfRange) ∧
    (∀ k : Nat, 2048 ≤ k → pixelPortLinear k s = .error .pixelOutOfRange)

/-! ### Keypad and timers (spec/46_timer_key.md) -/

/-- `Ex9E` and `ExA1` skip exactly if the key named by `V[x]` is held, or is not, while `V[x]` is at most 15; above
15 they raise `KEY_OOB` (R163, R164, R177; the fault is decision D6, notes/assumptions/14.md). -/
def Obligations.SkipsOnAKey : Prop :=
  ∀ (x : Reg) (s : State),
    ((s.reg x).toNat ≤ 15 →
      (∃ t, exec (.skp x) s = .next t ∧
        OnlyMovesPc (if s.keys.getLsbD (s.reg x).toNat then s.pc + 4 else s.pc + 2) s t) ∧
      (∃ t, exec (.sknp x) s = .next t ∧
        OnlyMovesPc (if s.keys.getLsbD (s.reg x).toNat then s.pc + 2 else s.pc + 4) s t)) ∧
    ((s.reg x).toNat > 15 →
      (∃ h, exec (.skp x) s = .fault (.keyOob h)) ∧ (∃ h, exec (.sknp x) s = .fault (.keyOob h)))

/-- `Fx07` reads `DT`, `Fx15` and `Fx18` write `DT` and `ST`, with no flag and nothing else changed (R160, R161,
R162): what executes is the state after the Step's decrement, so a Step that runs `Fx07` reads one less than the
Step began with, and one that runs `Fx15` or `Fx18` leaves the value written. -/
def Obligations.TimerRegistersAreReadAndWritten : Prop :=
  ∀ (x : Reg) (s : State),
    decodeWord (0xF#4 ++ nibbleOf x ++ 0x07#8) = some (.ldVxDt x) ∧
    decodeWord (0xF#4 ++ nibbleOf x ++ 0x15#8) = some (.ldDtVx x) ∧
    decodeWord (0xF#4 ++ nibbleOf x ++ 0x18#8) = some (.ldStVx x) ∧
    (∃ t, exec (.ldVxDt x) s = .next t ∧ SetsRegister x s.dt s t) ∧
    (∃ t, exec (.ldDtVx x) s = .next t ∧ t.dt = s.reg x ∧ t.pc = s.pc + 2 ∧ KeptBut [.delay] s t ∧ StepEnds false s t) ∧
    (∃ t, exec (.ldStVx x) s = .next t ∧ t.st = s.reg x ∧ t.pc = s.pc + 2 ∧ KeptBut [.sound] s t ∧ StepEnds false s t) ∧
    (s.Running → s.pc.toNat + 1 ≤ 0xFFF →
      (decodeWord (opcodeAt s) = some (.ldVxDt x) → ∃ t, step s = .next t ∧ t.reg x = oneLess s.dt ∧ t.dt = oneLess s.dt) ∧
      (decodeWord (opcodeAt s) = some (.ldDtVx x) → ∃ t, step s = .next t ∧ t.dt = s.reg x) ∧
      (decodeWord (opcodeAt s) = some (.ldStVx x) → ∃ t, step s = .next t ∧ t.st = s.reg x))

/-- `Fx0A` records its register and enters the wait, moves `PC` past itself in the same Step, and writes no
register, whatever keys are held; a waiting Step with no key held leaves the block waiting for the same register,
and the first one that finds a key held writes the lowest one's number to that register (R165, R84; that `changed`
is 0 in a key-wait Step is decision D17, notes/assumptions/4.md). -/
def Obligations.WaitForKeyRecordsItsRegister : Prop :=
  ∀ (x : Reg) (s : State), decodeWord (0xF#4 ++ nibbleOf x ++ 0x0A#8) = some (.ldVxK x) ∧
    (∃ t, exec (.ldVxK x) s = .next t ∧ t.wait = true ∧ t.wreg = x ∧ t.pc = s.pc + 2 ∧ KeptBut [.keyWait] s t ∧
      StepEnds false s t) ∧
    (s.AwaitingKey → s.wreg = x →
      ((∀ k : Key, s.keys.getLsbD k.val = false) →
        ∃ t, step s = .next t ∧ t.AwaitingKey ∧ t.wreg = x ∧ OnlyMovesPc s.pc s t) ∧
      ∀ k : Key, s.keys.getLsbD k.val = true → (∀ j < k, s.keys.getLsbD j.val = false) →
        ∃ t, step s = .next t ∧ t.reg x = BitVec.ofNat 8 k.val ∧ t.wait = false ∧ t.pc = s.pc ∧ t.dt = s.dt ∧
          t.st = s.st)

/-! ### Load (spec/70_reset_and_hazards.md) -/

/-- A Load of at most 3584 bytes places them verbatim from 0x200 on and changes nothing else; a longer one latches
`ROM_TOO_LARGE` and copies nothing (R192, R193; that nothing is copied is decision D16, notes/assumptions/28.md; that
the fault carries the Halted state is decision D3, notes/assumptions/6.md). -/
def Obligations.LoadPlacesTheProgram : Prop :=
  ∀ (rom : List Byte) (s : State), s.lifecycle = .created →
    (rom.length ≤ 3584 → ∃ t, load rom s = .next t ∧
      (∀ k (h : k < rom.length), t.byteAt (0x200 + k) = rom[k]) ∧
      (∀ a, a < 0x200 ∨ 0x200 + rom.length ≤ a → t.byteAt a = s.byteAt a) ∧
      t.pc = s.pc ∧ KeptBut [.memory] s t) ∧
    (rom.length > 3584 → ∃ h, load rom s = .fault (.romTooLarge h) ∧ h.fault = some .romTooLarge ∧ h.pc = s.pc ∧
      KeptBut [.fault] s h)

/-- After a Load, one rejected as too large among them, and after any Step, a Load is refused, so at most one Load
takes place and before the first Step (R191; the refusal is decision D16, notes/assumptions/5.md; that a rejected Load
counts as the one Load is notes/assumptions/28.md; that a fault carries the Halted state is decision D3,
notes/assumptions/6.md). -/
def Obligations.LoadIsRefusedOutOfOrder : Prop :=
  ∀ (rom again : List Byte) (s : State),
    (∀ t : State, load rom s = .next t → load again t = .refused .loadOutOfOrder) ∧
    (∀ f : Fault, load rom s = .fault f → load again f.halted = .refused .loadOutOfOrder) ∧
    (∀ t : State, step s = .next t → load again t = .refused .loadOutOfOrder) ∧
    ∀ f : Fault, step s = .fault f → load again f.halted = .refused .loadOutOfOrder
end

