-- ==== Sys2Proof/Laws/Decode.lean ====
section
/-! SUPPORT. The fields of a word and the formats of the encoder as numbers, the fields of an encoded word
(spec/30_encoding.md R62 to R64), and a word laid out as bytes and read back (R61). -/

namespace Sys2Proof

/-! ### As numbers -/

theorem toNat_fieldA (op : Word) : (fieldA op).toNat = op.toNat / 4096 % 16 := by
  simp [fieldA, Nat.shiftRight_eq_div_pow]

theorem toNat_fieldB (op : Word) : (fieldB op).toNat = op.toNat / 256 % 16 := by
  simp [fieldB, Nat.shiftRight_eq_div_pow]

theorem toNat_fieldC (op : Word) : (fieldC op).toNat = op.toNat / 16 % 16 := by
  simp [fieldC, Nat.shiftRight_eq_div_pow]

theorem toNat_fieldD (op : Word) : (fieldD op).toNat = op.toNat % 16 := by simp [fieldD]

theorem toNat_fieldKk (op : Word) : (fieldKk op).toNat = op.toNat % 256 := by simp [fieldKk]

theorem toNat_fieldAddr (op : Word) : (fieldAddr op).toNat = op.toNat % 4096 := by simp [fieldAddr]

theorem toNat_highByte (op : Word) : (highByte op).toNat = op.toNat / 256 % 256 := by
  simp [highByte, Nat.shiftRight_eq_div_pow]

theorem toNat_lowByte (op : Word) : (lowByte op).toNat = op.toNat % 256 := by simp [lowByte]

theorem toNat_nibbleOf (r : Fin 16) : (nibbleOf r).toNat = r.val := rfl

theorem toNat_append {n m : Nat} (a : BitVec n) (b : BitVec m) :
    (a ++ b).toNat = a.toNat * 2 ^ m + b.toNat := by
  rw [BitVec.toNat_append, Nat.shiftLeft_eq, ← Nat.shiftLeft_eq, ← Nat.shiftLeft_add_eq_or_of_lt b.isLt]

theorem toNat_assembleOpcode (hi lo : Byte) : (assembleOpcode hi lo).toNat = hi.toNat * 256 + lo.toNat :=
  toNat_append hi lo

theorem toNat_encodeA (a : Nibble) (addr : Addr) : (encodeA a addr).toNat = a.toNat * 4096 + addr.toNat :=
  toNat_append a addr

theorem toNat_encodeXK (a : Nibble) (x : Reg) (kk : Byte) :
    (encodeXK a x kk).toNat = a.toNat * 4096 + x.val * 256 + kk.toNat := by
  have h1 := toNat_append a (nibbleOf x)
  have h2 := toNat_append (a ++ nibbleOf x) kk
  rw [h1, toNat_nibbleOf] at h2
  refine h2.trans ?_
  omega

theorem toNat_encodeXYN (a : Nibble) (x y : Reg) (n : Fin 16) :
    (encodeXYN a x y n).toNat = a.toNat * 4096 + x.val * 256 + y.val * 16 + n.val := by
  have h1 := toNat_append a (nibbleOf x)
  have h2 := toNat_append (a ++ nibbleOf x) (nibbleOf y)
  have h3 := toNat_append ((a ++ nibbleOf x) ++ nibbleOf y) (nibbleOf n)
  rw [h2, h1, toNat_nibbleOf, toNat_nibbleOf, toNat_nibbleOf] at h3
  refine h3.trans ?_
  omega

/-! ### The fields of an encoded word -/

@[simp] theorem index_nibbleOf (r : Fin 16) : Nibble.index (nibbleOf r) = r := rfl

@[simp] theorem nibbleOf_index (f : Nibble) : nibbleOf (Nibble.index f) = f := rfl

theorem toNat_index (f : Nibble) : (Nibble.index f).val = f.toNat := rfl

@[simp] theorem fieldA_encodeA (a : Nibble) (addr : Addr) : fieldA (encodeA a addr) = a := by
  apply BitVec.eq_of_toNat_eq; rw [toNat_fieldA, toNat_encodeA]; have := a.isLt; have := addr.isLt; omega

@[simp] theorem fieldAddr_encodeA (a : Nibble) (addr : Addr) : fieldAddr (encodeA a addr) = addr := by
  apply BitVec.eq_of_toNat_eq; rw [toNat_fieldAddr, toNat_encodeA]; have := addr.isLt; omega

@[simp] theorem fieldA_encodeXK (a : Nibble) (x : Reg) (kk : Byte) : fieldA (encodeXK a x kk) = a := by
  apply BitVec.eq_of_toNat_eq; rw [toNat_fieldA, toNat_encodeXK]
  have := a.isLt; have := kk.isLt; omega

@[simp] theorem fieldB_encodeXK (a : Nibble) (x : Reg) (kk : Byte) :
    Nibble.index (fieldB (encodeXK a x kk)) = x := by
  apply Fin.ext; rw [toNat_index, toNat_fieldB, toNat_encodeXK]
  have := kk.isLt; omega

@[simp] theorem fieldKk_encodeXK (a : Nibble) (x : Reg) (kk : Byte) : fieldKk (encodeXK a x kk) = kk := by
  apply BitVec.eq_of_toNat_eq; rw [toNat_fieldKk, toNat_encodeXK]
  have := kk.isLt; omega

@[simp] theorem fieldA_encodeXYN (a : Nibble) (x y : Reg) (n : Fin 16) : fieldA (encodeXYN a x y n) = a := by
  apply BitVec.eq_of_toNat_eq; rw [toNat_fieldA, toNat_encodeXYN]
  have := a.isLt; omega

@[simp] theorem fieldB_encodeXYN (a : Nibble) (x y : Reg) (n : Fin 16) :
    Nibble.index (fieldB (encodeXYN a x y n)) = x := by
  apply Fin.ext; rw [toNat_index, toNat_fieldB, toNat_encodeXYN]; omega

@[simp] theorem fieldC_encodeXYN (a : Nibble) (x y : Reg) (n : Fin 16) :
    Nibble.index (fieldC (encodeXYN a x y n)) = y := by
  apply Fin.ext; rw [toNat_index, toNat_fieldC, toNat_encodeXYN]; omega

@[simp] theorem fieldD_encodeXYN (a : Nibble) (x y : Reg) (n : Fin 16) :
    fieldD (encodeXYN a x y n) = nibbleOf n := by
  apply BitVec.eq_of_toNat_eq; rw [toNat_fieldD, toNat_encodeXYN, toNat_nibbleOf]; omega

/-! ### Words as bytes -/

@[simp] theorem assembleOpcode_bytes (op : Word) : assembleOpcode (highByte op) (lowByte op) = op := by
  apply BitVec.eq_of_toNat_eq; rw [toNat_assembleOpcode, toNat_highByte, toNat_lowByte]
  have := op.isLt; omega

/-- The decoder reads a laid-out word as `decodeWord` reads the word. -/
theorem decode_wordBytes (op : Word) (rest : List Byte) :
    decode (wordBytes op ++ rest) =
      match decodeWord op with
      | some i => .ok (i, rest)
      | none => .error (.unimplemented op) := by
  cases h : decodeWord op <;> simp [wordBytes, decode, h]

/-- The host's probe reads a 16-bit row's word as `decodeWord` reads the word. -/
theorem decodeTableWord_sixteen (w : Nat) : decodeTableWord 16 w = decodeWord (BitVec.ofNat 16 w) := by
  have hw : tableWord 16 w = BitVec.ofNat 16 w := by
    apply BitVec.eq_of_toNat_eq; simp [tableWord]
  have := decode_wordBytes (BitVec.ofNat 16 w) []
  rw [List.append_nil] at this
  rw [decodeTableWord, hw, this]
  cases decodeWord (BitVec.ofNat 16 w) <;> rfl

end Sys2Proof
end

