-- ==== Sys2Proof/Laws/State.lean ====
section
/-! SUPPORT. What each update of the state does to each field, and to each way of reading the state that it
leaves alone: one lemma each, true by definition, so that no proof unfolds a record update. -/

namespace Sys2Proof.Machine

open Sys2Proof

/-! ### `State.setReg` -/

@[simp] theorem State.setReg_v (r : Reg) (b : Byte) (s : State) : (s.setReg r b).v = s.v.set r b := rfl
@[simp] theorem State.setReg_i (r : Reg) (b : Byte) (s : State) : (s.setReg r b).i = s.i := rfl
@[simp] theorem State.setReg_pc (r : Reg) (b : Byte) (s : State) : (s.setReg r b).pc = s.pc := rfl
@[simp] theorem State.setReg_stack (r : Reg) (b : Byte) (s : State) : (s.setReg r b).stack = s.stack := rfl
@[simp] theorem State.setReg_sp (r : Reg) (b : Byte) (s : State) : (s.setReg r b).sp = s.sp := rfl
@[simp] theorem State.setReg_dt (r : Reg) (b : Byte) (s : State) : (s.setReg r b).dt = s.dt := rfl
@[simp] theorem State.setReg_st (r : Reg) (b : Byte) (s : State) : (s.setReg r b).st = s.st := rfl
@[simp] theorem State.setReg_mem (r : Reg) (b : Byte) (s : State) : (s.setReg r b).mem = s.mem := rfl
@[simp] theorem State.setReg_fb (r : Reg) (b : Byte) (s : State) : (s.setReg r b).fb = s.fb := rfl
@[simp] theorem State.setReg_wait (r : Reg) (b : Byte) (s : State) : (s.setReg r b).wait = s.wait := rfl
@[simp] theorem State.setReg_wreg (r : Reg) (b : Byte) (s : State) : (s.setReg r b).wreg = s.wreg := rfl
@[simp] theorem State.setReg_fault (r : Reg) (b : Byte) (s : State) : (s.setReg r b).fault = s.fault := rfl
@[simp] theorem State.setReg_changed (r : Reg) (b : Byte) (s : State) : (s.setReg r b).changed = s.changed := rfl
@[simp] theorem State.setReg_lifecycle (r : Reg) (b : Byte) (s : State) : (s.setReg r b).lifecycle = s.lifecycle := rfl
@[simp] theorem State.setReg_inputs (r : Reg) (b : Byte) (s : State) : (s.setReg r b).inputs = s.inputs := rfl
@[simp] theorem State.setReg_stepCount (r : Reg) (b : Byte) (s : State) : (s.setReg r b).stepCount = s.stepCount := rfl
@[simp] theorem State.byteAt_setReg (r : Reg) (b : Byte) (n : Nat) (s : State) : (s.setReg r b).byteAt n = s.byteAt n := rfl
@[simp] theorem State.pixel_setReg (r : Reg) (b : Byte) (y : Row) (x : Col) (s : State) : (s.setReg r b).pixel y x = s.pixel y x := rfl
@[simp] theorem State.keys_setReg (r : Reg) (b : Byte) (s : State) : (s.setReg r b).keys = s.keys := rfl
@[simp] theorem State.rnd_setReg (r : Reg) (b : Byte) (s : State) : (s.setReg r b).rnd = s.rnd := rfl

/-! ### `State.setFlag` -/

@[simp] theorem State.setFlag_v (b : Byte) (s : State) : (s.setFlag b).v = s.v.set Config.flagReg b := rfl
@[simp] theorem State.setFlag_i (b : Byte) (s : State) : (s.setFlag b).i = s.i := rfl
@[simp] theorem State.setFlag_pc (b : Byte) (s : State) : (s.setFlag b).pc = s.pc := rfl
@[simp] theorem State.setFlag_stack (b : Byte) (s : State) : (s.setFlag b).stack = s.stack := rfl
@[simp] theorem State.setFlag_sp (b : Byte) (s : State) : (s.setFlag b).sp = s.sp := rfl
@[simp] theorem State.setFlag_dt (b : Byte) (s : State) : (s.setFlag b).dt = s.dt := rfl
@[simp] theorem State.setFlag_st (b : Byte) (s : State) : (s.setFlag b).st = s.st := rfl
@[simp] theorem State.setFlag_mem (b : Byte) (s : State) : (s.setFlag b).mem = s.mem := rfl
@[simp] theorem State.setFlag_fb (b : Byte) (s : State) : (s.setFlag b).fb = s.fb := rfl
@[simp] theorem State.setFlag_wait (b : Byte) (s : State) : (s.setFlag b).wait = s.wait := rfl
@[simp] theorem State.setFlag_wreg (b : Byte) (s : State) : (s.setFlag b).wreg = s.wreg := rfl
@[simp] theorem State.setFlag_fault (b : Byte) (s : State) : (s.setFlag b).fault = s.fault := rfl
@[simp] theorem State.setFlag_changed (b : Byte) (s : State) : (s.setFlag b).changed = s.changed := rfl
@[simp] theorem State.setFlag_lifecycle (b : Byte) (s : State) : (s.setFlag b).lifecycle = s.lifecycle := rfl
@[simp] theorem State.setFlag_inputs (b : Byte) (s : State) : (s.setFlag b).inputs = s.inputs := rfl
@[simp] theorem State.setFlag_stepCount (b : Byte) (s : State) : (s.setFlag b).stepCount = s.stepCount := rfl
@[simp] theorem State.byteAt_setFlag (b : Byte) (n : Nat) (s : State) : (s.setFlag b).byteAt n = s.byteAt n := rfl
@[simp] theorem State.pixel_setFlag (b : Byte) (y : Row) (x : Col) (s : State) : (s.setFlag b).pixel y x = s.pixel y x := rfl
@[simp] theorem State.keys_setFlag (b : Byte) (s : State) : (s.setFlag b).keys = s.keys := rfl
@[simp] theorem State.rnd_setFlag (b : Byte) (s : State) : (s.setFlag b).rnd = s.rnd := rfl

/-! ### `State.setIndex` -/

@[simp] theorem State.setIndex_v (a : Word) (s : State) : (s.setIndex a).v = s.v := rfl
@[simp] theorem State.setIndex_i (a : Word) (s : State) : (s.setIndex a).i = a := rfl
@[simp] theorem State.setIndex_pc (a : Word) (s : State) : (s.setIndex a).pc = s.pc := rfl
@[simp] theorem State.setIndex_stack (a : Word) (s : State) : (s.setIndex a).stack = s.stack := rfl
@[simp] theorem State.setIndex_sp (a : Word) (s : State) : (s.setIndex a).sp = s.sp := rfl
@[simp] theorem State.setIndex_dt (a : Word) (s : State) : (s.setIndex a).dt = s.dt := rfl
@[simp] theorem State.setIndex_st (a : Word) (s : State) : (s.setIndex a).st = s.st := rfl
@[simp] theorem State.setIndex_mem (a : Word) (s : State) : (s.setIndex a).mem = s.mem := rfl
@[simp] theorem State.setIndex_fb (a : Word) (s : State) : (s.setIndex a).fb = s.fb := rfl
@[simp] theorem State.setIndex_wait (a : Word) (s : State) : (s.setIndex a).wait = s.wait := rfl
@[simp] theorem State.setIndex_wreg (a : Word) (s : State) : (s.setIndex a).wreg = s.wreg := rfl
@[simp] theorem State.setIndex_fault (a : Word) (s : State) : (s.setIndex a).fault = s.fault := rfl
@[simp] theorem State.setIndex_changed (a : Word) (s : State) : (s.setIndex a).changed = s.changed := rfl
@[simp] theorem State.setIndex_lifecycle (a : Word) (s : State) : (s.setIndex a).lifecycle = s.lifecycle := rfl
@[simp] theorem State.setIndex_inputs (a : Word) (s : State) : (s.setIndex a).inputs = s.inputs := rfl
@[simp] theorem State.setIndex_stepCount (a : Word) (s : State) : (s.setIndex a).stepCount = s.stepCount := rfl
@[simp] theorem State.reg_setIndex (a : Word) (k : Reg) (s : State) : (s.setIndex a).reg k = s.reg k := rfl
@[simp] theorem State.byteAt_setIndex (a : Word) (n : Nat) (s : State) : (s.setIndex a).byteAt n = s.byteAt n := rfl
@[simp] theorem State.pixel_setIndex (a : Word) (y : Row) (x : Col) (s : State) : (s.setIndex a).pixel y x = s.pixel y x := rfl
@[simp] theorem State.keys_setIndex (a : Word) (s : State) : (s.setIndex a).keys = s.keys := rfl
@[simp] theorem State.rnd_setIndex (a : Word) (s : State) : (s.setIndex a).rnd = s.rnd := rfl

/-! ### `State.setPc` -/

@[simp] theorem State.setPc_v (a : Word) (s : State) : (s.setPc a).v = s.v := rfl
@[simp] theorem State.setPc_i (a : Word) (s : State) : (s.setPc a).i = s.i := rfl
@[simp] theorem State.setPc_pc (a : Word) (s : State) : (s.setPc a).pc = a := rfl
@[simp] theorem State.setPc_stack (a : Word) (s : State) : (s.setPc a).stack = s.stack := rfl
@[simp] theorem State.setPc_sp (a : Word) (s : State) : (s.setPc a).sp = s.sp := rfl
@[simp] theorem State.setPc_dt (a : Word) (s : State) : (s.setPc a).dt = s.dt := rfl
@[simp] theorem State.setPc_st (a : Word) (s : State) : (s.setPc a).st = s.st := rfl
@[simp] theorem State.setPc_mem (a : Word) (s : State) : (s.setPc a).mem = s.mem := rfl
@[simp] theorem State.setPc_fb (a : Word) (s : State) : (s.setPc a).fb = s.fb := rfl
@[simp] theorem State.setPc_wait (a : Word) (s : State) : (s.setPc a).wait = s.wait := rfl
@[simp] theorem State.setPc_wreg (a : Word) (s : State) : (s.setPc a).wreg = s.wreg := rfl
@[simp] theorem State.setPc_fault (a : Word) (s : State) : (s.setPc a).fault = s.fault := rfl
@[simp] theorem State.setPc_changed (a : Word) (s : State) : (s.setPc a).changed = s.changed := rfl
@[simp] theorem State.setPc_lifecycle (a : Word) (s : State) : (s.setPc a).lifecycle = s.lifecycle := rfl
@[simp] theorem State.setPc_inputs (a : Word) (s : State) : (s.setPc a).inputs = s.inputs := rfl
@[simp] theorem State.setPc_stepCount (a : Word) (s : State) : (s.setPc a).stepCount = s.stepCount := rfl
@[simp] theorem State.reg_setPc (a : Word) (k : Reg) (s : State) : (s.setPc a).reg k = s.reg k := rfl
@[simp] theorem State.byteAt_setPc (a : Word) (n : Nat) (s : State) : (s.setPc a).byteAt n = s.byteAt n := rfl
@[simp] theorem State.pixel_setPc (a : Word) (y : Row) (x : Col) (s : State) : (s.setPc a).pixel y x = s.pixel y x := rfl
@[simp] theorem State.keys_setPc (a : Word) (s : State) : (s.setPc a).keys = s.keys := rfl
@[simp] theorem State.rnd_setPc (a : Word) (s : State) : (s.setPc a).rnd = s.rnd := rfl

/-! ### `State.setDelay` -/

@[simp] theorem State.setDelay_v (b : Byte) (s : State) : (s.setDelay b).v = s.v := rfl
@[simp] theorem State.setDelay_i (b : Byte) (s : State) : (s.setDelay b).i = s.i := rfl
@[simp] theorem State.setDelay_pc (b : Byte) (s : State) : (s.setDelay b).pc = s.pc := rfl
@[simp] theorem State.setDelay_stack (b : Byte) (s : State) : (s.setDelay b).stack = s.stack := rfl
@[simp] theorem State.setDelay_sp (b : Byte) (s : State) : (s.setDelay b).sp = s.sp := rfl
@[simp] theorem State.setDelay_dt (b : Byte) (s : State) : (s.setDelay b).dt = b := rfl
@[simp] theorem State.setDelay_st (b : Byte) (s : State) : (s.setDelay b).st = s.st := rfl
@[simp] theorem State.setDelay_mem (b : Byte) (s : State) : (s.setDelay b).mem = s.mem := rfl
@[simp] theorem State.setDelay_fb (b : Byte) (s : State) : (s.setDelay b).fb = s.fb := rfl
@[simp] theorem State.setDelay_wait (b : Byte) (s : State) : (s.setDelay b).wait = s.wait := rfl
@[simp] theorem State.setDelay_wreg (b : Byte) (s : State) : (s.setDelay b).wreg = s.wreg := rfl
@[simp] theorem State.setDelay_fault (b : Byte) (s : State) : (s.setDelay b).fault = s.fault := rfl
@[simp] theorem State.setDelay_changed (b : Byte) (s : State) : (s.setDelay b).changed = s.changed := rfl
@[simp] theorem State.setDelay_lifecycle (b : Byte) (s : State) : (s.setDelay b).lifecycle = s.lifecycle := rfl
@[simp] theorem State.setDelay_inputs (b : Byte) (s : State) : (s.setDelay b).inputs = s.inputs := rfl
@[simp] theorem State.setDelay_stepCount (b : Byte) (s : State) : (s.setDelay b).stepCount = s.stepCount := rfl
@[simp] theorem State.reg_setDelay (b : Byte) (k : Reg) (s : State) : (s.setDelay b).reg k = s.reg k := rfl
@[simp] theorem State.byteAt_setDelay (b : Byte) (n : Nat) (s : State) : (s.setDelay b).byteAt n = s.byteAt n := rfl
@[simp] theorem State.pixel_setDelay (b : Byte) (y : Row) (x : Col) (s : State) : (s.setDelay b).pixel y x = s.pixel y x := rfl
@[simp] theorem State.keys_setDelay (b : Byte) (s : State) : (s.setDelay b).keys = s.keys := rfl
@[simp] theorem State.rnd_setDelay (b : Byte) (s : State) : (s.setDelay b).rnd = s.rnd := rfl

/-! ### `State.setSound` -/

@[simp] theorem State.setSound_v (b : Byte) (s : State) : (s.setSound b).v = s.v := rfl
@[simp] theorem State.setSound_i (b : Byte) (s : State) : (s.setSound b).i = s.i := rfl
@[simp] theorem State.setSound_pc (b : Byte) (s : State) : (s.setSound b).pc = s.pc := rfl
@[simp] theorem State.setSound_stack (b : Byte) (s : State) : (s.setSound b).stack = s.stack := rfl
@[simp] theorem State.setSound_sp (b : Byte) (s : State) : (s.setSound b).sp = s.sp := rfl
@[simp] theorem State.setSound_dt (b : Byte) (s : State) : (s.setSound b).dt = s.dt := rfl
@[simp] theorem State.setSound_st (b : Byte) (s : State) : (s.setSound b).st = b := rfl
@[simp] theorem State.setSound_mem (b : Byte) (s : State) : (s.setSound b).mem = s.mem := rfl
@[simp] theorem State.setSound_fb (b : Byte) (s : State) : (s.setSound b).fb = s.fb := rfl
@[simp] theorem State.setSound_wait (b : Byte) (s : State) : (s.setSound b).wait = s.wait := rfl
@[simp] theorem State.setSound_wreg (b : Byte) (s : State) : (s.setSound b).wreg = s.wreg := rfl
@[simp] theorem State.setSound_fault (b : Byte) (s : State) : (s.setSound b).fault = s.fault := rfl
@[simp] theorem State.setSound_changed (b : Byte) (s : State) : (s.setSound b).changed = s.changed := rfl
@[simp] theorem State.setSound_lifecycle (b : Byte) (s : State) : (s.setSound b).lifecycle = s.lifecycle := rfl
@[simp] theorem State.setSound_inputs (b : Byte) (s : State) : (s.setSound b).inputs = s.inputs := rfl
@[simp] theorem State.setSound_stepCount (b : Byte) (s : State) : (s.setSound b).stepCount = s.stepCount := rfl
@[simp] theorem State.reg_setSound (b : Byte) (k : Reg) (s : State) : (s.setSound b).reg k = s.reg k := rfl
@[simp] theorem State.byteAt_setSound (b : Byte) (n : Nat) (s : State) : (s.setSound b).byteAt n = s.byteAt n := rfl
@[simp] theorem State.pixel_setSound (b : Byte) (y : Row) (x : Col) (s : State) : (s.setSound b).pixel y x = s.pixel y x := rfl
@[simp] theorem State.keys_setSound (b : Byte) (s : State) : (s.setSound b).keys = s.keys := rfl
@[simp] theorem State.rnd_setSound (b : Byte) (s : State) : (s.setSound b).rnd = s.rnd := rfl

/-! ### `State.tickTimers` -/

@[simp] theorem State.tickTimers_v (s : State) : (s.tickTimers).v = s.v := rfl
@[simp] theorem State.tickTimers_i (s : State) : (s.tickTimers).i = s.i := rfl
@[simp] theorem State.tickTimers_pc (s : State) : (s.tickTimers).pc = s.pc := rfl
@[simp] theorem State.tickTimers_stack (s : State) : (s.tickTimers).stack = s.stack := rfl
@[simp] theorem State.tickTimers_sp (s : State) : (s.tickTimers).sp = s.sp := rfl
@[simp] theorem State.tickTimers_dt (s : State) : (s.tickTimers).dt = countDown s.dt := rfl
@[simp] theorem State.tickTimers_st (s : State) : (s.tickTimers).st = countDown s.st := rfl
@[simp] theorem State.tickTimers_mem (s : State) : (s.tickTimers).mem = s.mem := rfl
@[simp] theorem State.tickTimers_fb (s : State) : (s.tickTimers).fb = s.fb := rfl
@[simp] theorem State.tickTimers_wait (s : State) : (s.tickTimers).wait = s.wait := rfl
@[simp] theorem State.tickTimers_wreg (s : State) : (s.tickTimers).wreg = s.wreg := rfl
@[simp] theorem State.tickTimers_fault (s : State) : (s.tickTimers).fault = s.fault := rfl
@[simp] theorem State.tickTimers_changed (s : State) : (s.tickTimers).changed = s.changed := rfl
@[simp] theorem State.tickTimers_lifecycle (s : State) : (s.tickTimers).lifecycle = s.lifecycle := rfl
@[simp] theorem State.tickTimers_inputs (s : State) : (s.tickTimers).inputs = s.inputs := rfl
@[simp] theorem State.tickTimers_stepCount (s : State) : (s.tickTimers).stepCount = s.stepCount := rfl
@[simp] theorem State.reg_tickTimers (k : Reg) (s : State) : (s.tickTimers).reg k = s.reg k := rfl
@[simp] theorem State.byteAt_tickTimers (n : Nat) (s : State) : (s.tickTimers).byteAt n = s.byteAt n := rfl
@[simp] theorem State.pixel_tickTimers (y : Row) (x : Col) (s : State) : (s.tickTimers).pixel y x = s.pixel y x := rfl
@[simp] theorem State.keys_tickTimers (s : State) : (s.tickTimers).keys = s.keys := rfl
@[simp] theorem State.rnd_tickTimers (s : State) : (s.tickTimers).rnd = s.rnd := rfl

/-! ### `State.setScreen` -/

@[simp] theorem State.setScreen_v (g : Grid) (s : State) : (s.setScreen g).v = s.v := rfl
@[simp] theorem State.setScreen_i (g : Grid) (s : State) : (s.setScreen g).i = s.i := rfl
@[simp] theorem State.setScreen_pc (g : Grid) (s : State) : (s.setScreen g).pc = s.pc := rfl
@[simp] theorem State.setScreen_stack (g : Grid) (s : State) : (s.setScreen g).stack = s.stack := rfl
@[simp] theorem State.setScreen_sp (g : Grid) (s : State) : (s.setScreen g).sp = s.sp := rfl
@[simp] theorem State.setScreen_dt (g : Grid) (s : State) : (s.setScreen g).dt = s.dt := rfl
@[simp] theorem State.setScreen_st (g : Grid) (s : State) : (s.setScreen g).st = s.st := rfl
@[simp] theorem State.setScreen_mem (g : Grid) (s : State) : (s.setScreen g).mem = s.mem := rfl
@[simp] theorem State.setScreen_fb (g : Grid) (s : State) : (s.setScreen g).fb = g := rfl
@[simp] theorem State.setScreen_wait (g : Grid) (s : State) : (s.setScreen g).wait = s.wait := rfl
@[simp] theorem State.setScreen_wreg (g : Grid) (s : State) : (s.setScreen g).wreg = s.wreg := rfl
@[simp] theorem State.setScreen_fault (g : Grid) (s : State) : (s.setScreen g).fault = s.fault := rfl
@[simp] theorem State.setScreen_changed (g : Grid) (s : State) : (s.setScreen g).changed = s.changed := rfl
@[simp] theorem State.setScreen_lifecycle (g : Grid) (s : State) : (s.setScreen g).lifecycle = s.lifecycle := rfl
@[simp] theorem State.setScreen_inputs (g : Grid) (s : State) : (s.setScreen g).inputs = s.inputs := rfl
@[simp] theorem State.setScreen_stepCount (g : Grid) (s : State) : (s.setScreen g).stepCount = s.stepCount := rfl
@[simp] theorem State.reg_setScreen (g : Grid) (k : Reg) (s : State) : (s.setScreen g).reg k = s.reg k := rfl
@[simp] theorem State.byteAt_setScreen (g : Grid) (n : Nat) (s : State) : (s.setScreen g).byteAt n = s.byteAt n := rfl
@[simp] theorem State.keys_setScreen (g : Grid) (s : State) : (s.setScreen g).keys = s.keys := rfl
@[simp] theorem State.rnd_setScreen (g : Grid) (s : State) : (s.setScreen g).rnd = s.rnd := rfl

/-! ### `State.enterWait` -/

@[simp] theorem State.enterWait_v (r : Reg) (s : State) : (s.enterWait r).v = s.v := rfl
@[simp] theorem State.enterWait_i (r : Reg) (s : State) : (s.enterWait r).i = s.i := rfl
@[simp] theorem State.enterWait_pc (r : Reg) (s : State) : (s.enterWait r).pc = s.pc := rfl
@[simp] theorem State.enterWait_stack (r : Reg) (s : State) : (s.enterWait r).stack = s.stack := rfl
@[simp] theorem State.enterWait_sp (r : Reg) (s : State) : (s.enterWait r).sp = s.sp := rfl
@[simp] theorem State.enterWait_dt (r : Reg) (s : State) : (s.enterWait r).dt = s.dt := rfl
@[simp] theorem State.enterWait_st (r : Reg) (s : State) : (s.enterWait r).st = s.st := rfl
@[simp] theorem State.enterWait_mem (r : Reg) (s : State) : (s.enterWait r).mem = s.mem := rfl
@[simp] theorem State.enterWait_fb (r : Reg) (s : State) : (s.enterWait r).fb = s.fb := rfl
@[simp] theorem State.enterWait_wait (r : Reg) (s : State) : (s.enterWait r).wait = true := rfl
@[simp] theorem State.enterWait_wreg (r : Reg) (s : State) : (s.enterWait r).wreg = r := rfl
@[simp] theorem State.enterWait_fault (r : Reg) (s : State) : (s.enterWait r).fault = s.fault := rfl
@[simp] theorem State.enterWait_changed (r : Reg) (s : State) : (s.enterWait r).changed = s.changed := rfl
@[simp] theorem State.enterWait_lifecycle (r : Reg) (s : State) : (s.enterWait r).lifecycle = s.lifecycle := rfl
@[simp] theorem State.enterWait_inputs (r : Reg) (s : State) : (s.enterWait r).inputs = s.inputs := rfl
@[simp] theorem State.enterWait_stepCount (r : Reg) (s : State) : (s.enterWait r).stepCount = s.stepCount := rfl
@[simp] theorem State.reg_enterWait (r : Reg) (k : Reg) (s : State) : (s.enterWait r).reg k = s.reg k := rfl
@[simp] theorem State.byteAt_enterWait (r : Reg) (n : Nat) (s : State) : (s.enterWait r).byteAt n = s.byteAt n := rfl
@[simp] theorem State.pixel_enterWait (r : Reg) (y : Row) (x : Col) (s : State) : (s.enterWait r).pixel y x = s.pixel y x := rfl
@[simp] theorem State.keys_enterWait (r : Reg) (s : State) : (s.enterWait r).keys = s.keys := rfl
@[simp] theorem State.rnd_enterWait (r : Reg) (s : State) : (s.enterWait r).rnd = s.rnd := rfl

/-! ### `State.leaveWait` -/

@[simp] theorem State.leaveWait_v (s : State) : (s.leaveWait).v = s.v := rfl
@[simp] theorem State.leaveWait_i (s : State) : (s.leaveWait).i = s.i := rfl
@[simp] theorem State.leaveWait_pc (s : State) : (s.leaveWait).pc = s.pc := rfl
@[simp] theorem State.leaveWait_stack (s : State) : (s.leaveWait).stack = s.stack := rfl
@[simp] theorem State.leaveWait_sp (s : State) : (s.leaveWait).sp = s.sp := rfl
@[simp] theorem State.leaveWait_dt (s : State) : (s.leaveWait).dt = s.dt := rfl
@[simp] theorem State.leaveWait_st (s : State) : (s.leaveWait).st = s.st := rfl
@[simp] theorem State.leaveWait_mem (s : State) : (s.leaveWait).mem = s.mem := rfl
@[simp] theorem State.leaveWait_fb (s : State) : (s.leaveWait).fb = s.fb := rfl
@[simp] theorem State.leaveWait_wait (s : State) : (s.leaveWait).wait = false := rfl
@[simp] theorem State.leaveWait_wreg (s : State) : (s.leaveWait).wreg = s.wreg := rfl
@[simp] theorem State.leaveWait_fault (s : State) : (s.leaveWait).fault = s.fault := rfl
@[simp] theorem State.leaveWait_changed (s : State) : (s.leaveWait).changed = s.changed := rfl
@[simp] theorem State.leaveWait_lifecycle (s : State) : (s.leaveWait).lifecycle = s.lifecycle := rfl
@[simp] theorem State.leaveWait_inputs (s : State) : (s.leaveWait).inputs = s.inputs := rfl
@[simp] theorem State.leaveWait_stepCount (s : State) : (s.leaveWait).stepCount = s.stepCount := rfl
@[simp] theorem State.reg_leaveWait (k : Reg) (s : State) : (s.leaveWait).reg k = s.reg k := rfl
@[simp] theorem State.byteAt_leaveWait (n : Nat) (s : State) : (s.leaveWait).byteAt n = s.byteAt n := rfl
@[simp] theorem State.pixel_leaveWait (y : Row) (x : Col) (s : State) : (s.leaveWait).pixel y x = s.pixel y x := rfl
@[simp] theorem State.keys_leaveWait (s : State) : (s.leaveWait).keys = s.keys := rfl
@[simp] theorem State.rnd_leaveWait (s : State) : (s.leaveWait).rnd = s.rnd := rfl

/-! ### `State.latch` -/

@[simp] theorem State.latch_v (c : Cause) (s : State) : (s.latch c).v = s.v := rfl
@[simp] theorem State.latch_i (c : Cause) (s : State) : (s.latch c).i = s.i := rfl
@[simp] theorem State.latch_pc (c : Cause) (s : State) : (s.latch c).pc = s.pc := rfl
@[simp] theorem State.latch_stack (c : Cause) (s : State) : (s.latch c).stack = s.stack := rfl
@[simp] theorem State.latch_sp (c : Cause) (s : State) : (s.latch c).sp = s.sp := rfl
@[simp] theorem State.latch_dt (c : Cause) (s : State) : (s.latch c).dt = s.dt := rfl
@[simp] theorem State.latch_st (c : Cause) (s : State) : (s.latch c).st = s.st := rfl
@[simp] theorem State.latch_mem (c : Cause) (s : State) : (s.latch c).mem = s.mem := rfl
@[simp] theorem State.latch_fb (c : Cause) (s : State) : (s.latch c).fb = s.fb := rfl
@[simp] theorem State.latch_wait (c : Cause) (s : State) : (s.latch c).wait = s.wait := rfl
@[simp] theorem State.latch_wreg (c : Cause) (s : State) : (s.latch c).wreg = s.wreg := rfl
@[simp] theorem State.latch_fault (c : Cause) (s : State) : (s.latch c).fault = some c := rfl
@[simp] theorem State.latch_changed (c : Cause) (s : State) : (s.latch c).changed = s.changed := rfl
@[simp] theorem State.latch_lifecycle (c : Cause) (s : State) : (s.latch c).lifecycle = s.lifecycle := rfl
@[simp] theorem State.latch_inputs (c : Cause) (s : State) : (s.latch c).inputs = s.inputs := rfl
@[simp] theorem State.latch_stepCount (c : Cause) (s : State) : (s.latch c).stepCount = s.stepCount := rfl
@[simp] theorem State.reg_latch (c : Cause) (k : Reg) (s : State) : (s.latch c).reg k = s.reg k := rfl
@[simp] theorem State.byteAt_latch (c : Cause) (n : Nat) (s : State) : (s.latch c).byteAt n = s.byteAt n := rfl
@[simp] theorem State.pixel_latch (c : Cause) (y : Row) (x : Col) (s : State) : (s.latch c).pixel y x = s.pixel y x := rfl
@[simp] theorem State.keys_latch (c : Cause) (s : State) : (s.latch c).keys = s.keys := rfl
@[simp] theorem State.rnd_latch (c : Cause) (s : State) : (s.latch c).rnd = s.rnd := rfl

/-! ### `State.endStep` -/

@[simp] theorem State.endStep_v (ch : Bool) (s : State) : (s.endStep ch).v = s.v := rfl
@[simp] theorem State.endStep_i (ch : Bool) (s : State) : (s.endStep ch).i = s.i := rfl
@[simp] theorem State.endStep_pc (ch : Bool) (s : State) : (s.endStep ch).pc = s.pc := rfl
@[simp] theorem State.endStep_stack (ch : Bool) (s : State) : (s.endStep ch).stack = s.stack := rfl
@[simp] theorem State.endStep_sp (ch : Bool) (s : State) : (s.endStep ch).sp = s.sp := rfl
@[simp] theorem State.endStep_dt (ch : Bool) (s : State) : (s.endStep ch).dt = s.dt := rfl
@[simp] theorem State.endStep_st (ch : Bool) (s : State) : (s.endStep ch).st = s.st := rfl
@[simp] theorem State.endStep_mem (ch : Bool) (s : State) : (s.endStep ch).mem = s.mem := rfl
@[simp] theorem State.endStep_fb (ch : Bool) (s : State) : (s.endStep ch).fb = s.fb := rfl
@[simp] theorem State.endStep_wait (ch : Bool) (s : State) : (s.endStep ch).wait = s.wait := rfl
@[simp] theorem State.endStep_wreg (ch : Bool) (s : State) : (s.endStep ch).wreg = s.wreg := rfl
@[simp] theorem State.endStep_fault (ch : Bool) (s : State) : (s.endStep ch).fault = s.fault := rfl
@[simp] theorem State.endStep_changed (ch : Bool) (s : State) : (s.endStep ch).changed = ch := rfl
@[simp] theorem State.endStep_lifecycle (ch : Bool) (s : State) : (s.endStep ch).lifecycle = .stepped := rfl
@[simp] theorem State.endStep_inputs (ch : Bool) (s : State) : (s.endStep ch).inputs = s.inputs.tail := rfl
@[simp] theorem State.endStep_stepCount (ch : Bool) (s : State) : (s.endStep ch).stepCount = s.stepCount + 1 := rfl
@[simp] theorem State.reg_endStep (ch : Bool) (k : Reg) (s : State) : (s.endStep ch).reg k = s.reg k := rfl
@[simp] theorem State.byteAt_endStep (ch : Bool) (n : Nat) (s : State) : (s.endStep ch).byteAt n = s.byteAt n := rfl
@[simp] theorem State.pixel_endStep (ch : Bool) (y : Row) (x : Col) (s : State) : (s.endStep ch).pixel y x = s.pixel y x := rfl

/-! ### Reads that an update does change -/

@[simp] theorem State.reg_setReg (r k : Reg) (b : Byte) (s : State) :
    (s.setReg r b).reg k = if k = r then b else s.reg k := by
  simp only [State.reg, State.setReg_v, Fin.getElem_fin, Vector.getElem_set, Fin.ext_iff, eq_comm]

@[simp] theorem State.reg_setFlag (k : Reg) (b : Byte) (s : State) :
    (s.setFlag b).reg k = if k = 15 then b else s.reg k :=
  State.reg_setReg Config.flagReg k b s

@[simp] theorem State.pixel_setScreen (g : Grid) (y : Row) (x : Col) (s : State) :
    (s.setScreen g).pixel y x = g.pixel y x := rfl

end Sys2Proof.Machine
end

