-- ==== Sys2Proof/Laws/Memory.lean ====
section
/-! SUPPORT. The laws of memory: a read after a write, runs of bytes, and the canonical form, which every
operation keeps (spec/20_memory.md R44, R47, R51). -/

namespace Sys2Proof.Machine

open Sys2Proof

theorem Memory.read_insert (m : Memory) (a b : Nat) (w : Byte) (fresh : ∀ c ∈ m, c.1 ≠ a) :
    (m.insert a w).read b = if b = a then w else m.read b := by
  induction m with
  | nil => simp [Memory.insert, Memory.read, eq_comm]
  | cons c rest ih =>
    obtain ⟨d, u⟩ := c
    have hd : d ≠ a := fresh (d, u) (by simp)
    have ih := ih fun c hc => fresh c (by simp [hc])
    by_cases hlt : a < d
    · simp [Memory.insert, hlt, Memory.read, eq_comm]
    · simp only [Memory.insert, hlt, if_false, Memory.read, ih]
      by_cases hb : d = b
      · subst hb; simp [hd]
      · simp [hb]

theorem Memory.read_filter (m : Memory) (a b : Nat) :
    Memory.read (m.filter (fun c => c.1 != a)) b = if b = a then Memory.initial a else m.read b := by
  induction m with
  | nil => by_cases hb : b = a <;> simp [Memory.read, hb]
  | cons c rest ih =>
    obtain ⟨d, u⟩ := c
    by_cases hd : d = a
    · subst hd
      by_cases hb : b = d <;> simp_all [Memory.read, eq_comm]
    · by_cases hb : b = a
      · subst hb; simp_all [Memory.read]
      · simp_all [Memory.read]

/-- A read after a write: the byte written at its address, and the old byte everywhere else (R44, R51). -/
@[simp] theorem Memory.read_write (m : Memory) (a b : Nat) (w : Byte) :
    (m.write a w).read b = if b = a then w else m.read b := by
  unfold Memory.write
  by_cases hw : w = Memory.initial a
  · simp [hw, Memory.read_filter]
  · rw [if_neg hw, Memory.read_insert _ _ _ _ (by simp), Memory.read_filter]
    by_cases hb : b = a <;> simp [hb]

/-- A read after a run of writes: the byte of the run at its place, and the old byte outside the run (R47). -/
theorem Memory.read_writeList (ws : List Byte) (m : Memory) (a b : Nat) :
    (m.writeList a ws).read b = if a ≤ b ∧ b < a + ws.length then ws.getD (b - a) 0 else m.read b := by
  induction ws generalizing m a with
  | nil => simp [Memory.writeList]
  | cons w ws ih =>
    rw [Memory.writeList, ih, Memory.read_write]
    by_cases hb : b = a
    · subst hb; simp
    · by_cases hin : a ≤ b ∧ b < a + (w :: ws).length
      · have h1 : a + 1 ≤ b ∧ b < a + 1 + ws.length := by simp at hin; omega
        obtain ⟨k, hk⟩ : ∃ k, b - a = k + 1 := ⟨b - a - 1, by omega⟩
        have hk' : b - (a + 1) = k := by omega
        rw [if_pos h1, if_pos hin, hk, hk']; simp
      · have h1 : ¬ (a + 1 ≤ b ∧ b < a + 1 + ws.length) := by simp at hin; omega
        rw [if_neg h1, if_neg hin, if_neg hb]

@[simp] theorem Memory.length_readList (m : Memory) (a n : Nat) : (m.readList a n).length = n := by
  induction n generalizing a with
  | zero => rfl
  | succ n ih => simp [Memory.readList, ih]

/-- A run of reads, byte by byte (R47). -/
theorem Memory.getD_readList (m : Memory) (a n k : Nat) (hk : k < n) :
    (m.readList a n).getD k 0 = m.read (a + k) := by
  induction n generalizing a k with
  | zero => omega
  | succ n ih =>
    cases k with
    | zero => simp [Memory.readList]
    | succ k =>
      have := ih (a + 1) k (by omega)
      simp only [Memory.readList, List.getD_cons_succ, this]
      congr 1; omega

theorem Memory.readList_congr (m m' : Memory) (a n : Nat)
    (h : ∀ k < n, m.read (a + k) = m'.read (a + k)) : m.readList a n = m'.readList a n := by
  induction n generalizing a with
  | zero => rfl
  | succ n ih =>
    simp only [Memory.readList, List.cons.injEq]
    exact ⟨by simpa using h 0 (by omega), ih (a + 1) fun k hk => by
      have := h (k + 1) (by omega)
      rwa [show a + (k + 1) = a + 1 + k by omega] at this⟩

/-! ### The canonical form -/

theorem Memory.wf_cons (a : Nat) (w : Byte) (m : Memory) :
    Memory.wf ((a, w) :: m) = true ↔
      a < Config.memSize ∧ w ≠ Memory.initial a ∧ (∀ c ∈ m, a < c.1) ∧ Memory.wf m = true := by
  simp [Memory.wf, and_assoc]

theorem Memory.mem_insert (m : Memory) (a : Nat) (w : Byte) (c : Host.Cell) (hc : c ∈ m.insert a w) :
    c = (a, w) ∨ c ∈ m := by
  induction m with
  | nil => simpa [Memory.insert] using hc
  | cons d rest ih =>
    obtain ⟨b, u⟩ := d
    by_cases hlt : a < b
    · simpa [Memory.insert, hlt] using hc
    · simp only [Memory.insert, hlt, if_false, List.mem_cons] at hc ⊢
      rcases hc with hc | hc
      · exact .inr (.inl hc)
      · exact (ih hc).imp id .inr

theorem Memory.wf_insert (m : Memory) (a : Nat) (w : Byte) (ha : a < Config.memSize)
    (hw : w ≠ Memory.initial a) (fresh : ∀ c ∈ m, c.1 ≠ a) (h : m.wf = true) :
    (m.insert a w).wf = true := by
  induction m with
  | nil => rw [Memory.insert, Memory.wf_cons]; exact ⟨ha, hw, by simp, rfl⟩
  | cons d rest ih =>
    obtain ⟨b, u⟩ := d
    have h' := h
    rw [Memory.wf_cons] at h'
    obtain ⟨hb, hu, hlow, hrest⟩ := h'
    by_cases hlt : a < b
    · simp only [Memory.insert, hlt, if_true]
      rw [Memory.wf_cons]
      refine ⟨ha, hw, fun c hc => ?_, h⟩
      rcases List.mem_cons.1 hc with rfl | hc
      · exact hlt
      · exact lt_trans hlt (hlow c hc)
    · have hba : b ≠ a := fresh (b, u) (by simp)
      simp only [Memory.insert, hlt, if_false]
      rw [Memory.wf_cons]
      refine ⟨hb, hu, fun c hc => ?_, ih (fun c hc => fresh c (by simp [hc])) hrest⟩
      rcases Memory.mem_insert rest a w c hc with rfl | hc
      · show b < a; omega
      · exact hlow c hc

theorem Memory.wf_filter (m : Memory) (p : Host.Cell → Bool) (h : m.wf = true) :
    Memory.wf (m.filter p) = true := by
  induction m with
  | nil => simp [Memory.wf]
  | cons d rest ih =>
    obtain ⟨b, u⟩ := d
    rw [Memory.wf_cons] at h
    obtain ⟨hb, hu, hlow, hrest⟩ := h
    by_cases hp : p (b, u) = true
    · rw [List.filter_cons_of_pos hp, Memory.wf_cons]
      exact ⟨hb, hu, fun c hc => hlow c (List.mem_of_mem_filter hc), ih hrest⟩
    · rw [List.filter_cons_of_neg hp]; exact ih hrest

/-- A write inside memory keeps the canonical form. -/
theorem Memory.wf_write (m : Memory) (a : Nat) (w : Byte) (ha : a < Config.memSize) (h : m.wf = true) :
    (m.write a w).wf = true := by
  unfold Memory.write
  by_cases hw : w = Memory.initial a
  · rw [if_pos hw]; exact Memory.wf_filter m _ h
  · rw [if_neg hw]; exact Memory.wf_insert _ a w ha hw (by simp) (Memory.wf_filter m _ h)

/-- A run of writes inside memory keeps the canonical form. -/
theorem Memory.wf_writeList (ws : List Byte) (m : Memory) (a : Nat)
    (ha : a + ws.length ≤ Config.memSize) (h : m.wf = true) : (m.writeList a ws).wf = true := by
  induction ws generalizing m a with
  | nil => exact h
  | cons w ws ih =>
    simp only [List.length_cons] at ha
    exact ih _ (a + 1) (by omega) (Memory.wf_write m a w (by omega) h)

/-- Memory after reset is in canonical form. -/
theorem Memory.wf_reset : State.reset.mem.wf = true := rfl

/-! ### Checked runs of bytes -/

theorem memSize_eq : Config.memSize = 4096 := rfl

theorem inMemory_iff (a n : Nat) : inMemory a n = true ↔ n = 0 ∨ a + n ≤ Config.memSize := by
  simp [inMemory]

/-- What a checked read answers: the bytes, exactly when all its addresses exist (R44, R45). -/
theorem State.loadBytes_eq_some (s : State) (a n : Nat) (bs : List Byte) :
    s.loadBytes a n = some bs ↔ (n = 0 ∨ a + n ≤ Config.memSize) ∧ bs = s.mem.readList a n := by
  rw [← inMemory_iff]
  unfold State.loadBytes
  split
  · rename_i h; simp [h, eq_comm]
  · rename_i h; simp [h]

/-- What a checked store answers: a state whose memory alone differs, exactly when all its addresses exist
(R44, R45). -/
theorem State.storeBytes_eq_some (s t : State) (a : Nat) (bs : List Byte) :
    s.storeBytes a bs = some t ↔
      (bs.length = 0 ∨ a + bs.length ≤ Config.memSize) ∧ t = { s with mem := s.mem.writeList a bs } := by
  rw [← inMemory_iff]
  unfold State.storeBytes
  split
  · rename_i h; simp [h, eq_comm]
  · rename_i h; simp [h]

/-- Every byte of memory after a checked store: the run's bytes inside it, the old bytes outside (R47). -/
theorem State.byteAt_storeBytes (s t : State) (a b : Nat) (bs : List Byte) (h : s.storeBytes a bs = some t) :
    t.byteAt b = if a ≤ b ∧ b < a + bs.length then bs.getD (b - a) 0 else s.byteAt b := by
  rw [State.storeBytes_eq_some] at h
  obtain ⟨-, rfl⟩ := h
  exact Memory.read_writeList bs s.mem a b

/-- A checked store keeps the canonical form. -/
theorem State.storeBytes_wf (s t : State) (a : Nat) (bs : List Byte) (h : s.storeBytes a bs = some t)
    (hs : s.mem.wf = true) : t.mem.wf = true := by
  rw [State.storeBytes_eq_some] at h
  obtain ⟨h0 | h1, rfl⟩ := h
  · rw [List.eq_nil_of_length_eq_zero h0]; exact hs
  · exact Memory.wf_writeList bs s.mem a h1 hs

/-- A checked read fails exactly when there is a byte to read and the highest address lies above 0xFFF (R45,
R174). -/
theorem State.loadBytes_eq_none (s : State) (a n : Nat) :
    s.loadBytes a n = none ↔ 0 < n ∧ a + n - 1 > 0xFFF := by
  have h := inMemory_iff a n
  rw [memSize_eq] at h
  unfold State.loadBytes
  by_cases hin : inMemory a n = true
  · rw [if_pos hin]; have := h.1 hin; simp; omega
  · rw [if_neg hin]; have := mt h.2 hin; simp; omega

/-- A checked store fails exactly when there is a byte to store and the highest address lies above 0xFFF (R45,
R174). -/
theorem State.storeBytes_eq_none (s : State) (a : Nat) (bs : List Byte) :
    s.storeBytes a bs = none ↔ 0 < bs.length ∧ a + bs.length - 1 > 0xFFF := by
  have h := inMemory_iff a bs.length
  rw [memSize_eq] at h
  unfold State.storeBytes
  by_cases hin : inMemory a bs.length = true
  · rw [if_pos hin]; have := h.1 hin; simp; omega
  · rw [if_neg hin]; have := mt h.2 hin; simp; omega

end Sys2Proof.Machine
end

