-- ==== Sys2Proof/Laws/Ops.lean ====
section
/-! SUPPORT. What each shared operation can answer, said once: the ends of a Step, the stack, runs of
registers, and the key operands. -/

namespace Sys2Proof.Machine

open Sys2Proof

/-! ### The ends of a Step -/

@[simp] theorem PcAction.target_next (pc : Word) : PcAction.next.target pc = pc + 2 := rfl

@[simp] theorem PcAction.target_skip (pc : Word) : PcAction.skip.target pc = pc + 4 := rfl

@[simp] theorem PcAction.target_jump (a pc : Word) : (PcAction.jump a).target pc = a := rfl

/-- A conditional skip goes four bytes on or two (R88). -/
@[simp] theorem PcAction.target_skipIf (b : Bool) (pc : Word) :
    (skipIf b).target pc = if b then pc + 4 else pc + 2 := by cases b <;> rfl

/-- The tick of a timer is one less, with its floor at zero (R85). -/
theorem countDown_eq_oneLess (b : Byte) : countDown b = oneLess b := by revert b; decide

/-- An instruction that completes answers exactly one next state (R88, R89). -/
theorem complete_eq_next (act : PcAction) (ch : Bool) (s t : State) :
    complete act ch s = .next t ↔ t = (s.setPc (act.target s.pc)).endStep ch := by
  simp [complete, eq_comm]

theorem complete_ne_fault (act : PcAction) (ch : Bool) (s : State) (f : Fault) :
    complete act ch s ≠ .fault f := by
  simp [complete]

/-- Taking a fault answers no next state. -/
theorem raise_ne_next (c : Cause) (s t : State) : raise c s ≠ .next t := by simp [raise]

@[simp] theorem Cause.cause_fault (c : Cause) (s : State) : (c.fault s).cause = c := by cases c <;> rfl

@[simp] theorem Cause.halted_fault (c : Cause) (s : State) : (c.fault s).halted = s := by cases c <;> rfl

/-- Taking a fault answers one fault: its cause, and the state with that cause latched (R181). -/
theorem raise_eq_fault (c : Cause) (s : State) (f : Fault) :
    raise c s = .fault f ↔ f.cause = c ∧ f.halted = (s.latch c).endStep false := by
  constructor
  · intro h
    obtain rfl : c.fault ((s.latch c).endStep false) = f := by simpa [raise] using h
    simp
  · rintro ⟨rfl, h⟩
    cases f <;> simp_all [raise, Fault.halted, Fault.cause, Cause.fault]

variable {α : Type}

/-- An instruction guarded by an access completes exactly when the access succeeds and what follows
completes. -/
theorem orRaise_eq_next (c : Cause) (s t : State) (got : Option α) (go : α → Result) :
    orRaise c s got go = .next t ↔ ∃ a, got = some a ∧ go a = .next t := by
  cases got <;> simp [orRaise, raise]

/-- It faults exactly when the access fails, with the access's cause, or when what follows faults. -/
theorem orRaise_eq_fault (c : Cause) (s : State) (f : Fault) (got : Option α) (go : α → Result) :
    orRaise c s got go = .fault f ↔ got = none ∧ raise c s = .fault f ∨ ∃ a, got = some a ∧ go a = .fault f := by
  cases got <;> simp [orRaise]

/-! ### The stack (R16) -/

/-- A push succeeds exactly below 16, writes the one slot, and leaves the rest of the state alone (R102). -/
theorem State.push_eq_some (a : Word) (s t : State) :
    s.push a = some t ↔
      ∃ h : s.sp.val < 16, t = { s with stack := s.stack.set s.sp.val a, sp := ⟨s.sp.val + 1, by omega⟩ } := by
  unfold State.push
  split
  · rename_i h; simp [h, eq_comm]
  · rename_i h; simp [h]

/-- A pop succeeds exactly above 0, gives the slot just vacated, and changes only `SP` (R100). -/
theorem State.pop_eq_some (s t : State) (a : Word) :
    s.pop = some (a, t) ↔
      s.sp.val ≠ 0 ∧ a = s.stack[s.sp.val - 1]'(by have := s.sp.isLt; omega) ∧
        t = { s with sp := ⟨s.sp.val - 1, by have := s.sp.isLt; omega⟩ } := by
  unfold State.pop
  split
  · rename_i h; simp [h]
  · rename_i h; simp [h, eq_comm]

/-- A push fails exactly with all 16 slots in use (R175). -/
theorem State.push_eq_none (a : Word) (s : State) : s.push a = none ↔ s.sp.val = 16 := by
  unfold State.push
  split
  · simp; omega
  · simp; omega

/-- A pop fails exactly on an empty stack (R176). -/
theorem State.pop_eq_none (s : State) : s.pop = none ↔ s.sp.val = 0 := by
  unfold State.pop
  split
  · rename_i h; simp [h]
  · rename_i h; simp [h]

/-! ### Runs of registers (R144, R145) -/

@[simp] theorem State.length_regsFrom (s : State) (k n : Nat) : (s.regsFrom k n).length = n := by
  induction n generalizing k with
  | zero => rfl
  | succ n ih => simp [State.regsFrom, ih]

@[simp] theorem State.length_regsUpTo (s : State) (x : Reg) : (s.regsUpTo x).length = x.val + 1 := by
  simp [State.regsUpTo]

/-- Byte `j` of a run of registers is the register of that number. -/
theorem State.getD_regsFrom (s : State) (k n j : Nat) (hj : j < n) (h : k + j < 16) :
    (s.regsFrom k n).getD j 0 = s.reg ⟨k + j, h⟩ := by
  induction n generalizing k j with
  | zero => omega
  | succ n ih =>
    cases j with
    | zero => simp [State.regsFrom, show k < 16 by omega]
    | succ j =>
      have := ih (k + 1) j (by omega) (by omega)
      simp only [State.regsFrom, List.getD_cons_succ, this]
      congr 1; exact Fin.ext (by simp; omega)

/-- The byte `Fx55` stores at offset `r` is `V[r]` (R144). -/
theorem State.getD_regsUpTo (s : State) (x r : Reg) (h : r ≤ x) : (s.regsUpTo x).getD r.val 0 = s.reg r := by
  have hr : r.val ≤ x.val := h
  have := s.getD_regsFrom 0 (x.val + 1) r.val (by omega) (by omega)
  simpa [State.regsUpTo] using this

/-- Writing a run of bytes to the registers changes the registers alone. -/
theorem State.setRegsFrom_eq (bs : List Byte) (k : Nat) (s : State) :
    s.setRegsFrom k bs = { s with v := (s.setRegsFrom k bs).v } := by
  induction bs generalizing k s with
  | nil => rfl
  | cons b bs ih =>
    simp only [State.setRegsFrom]
    rw [ih]
    split <;> rfl

@[simp] theorem State.setRegsFrom_i (bs : List Byte) (k : Nat) (s : State) : (s.setRegsFrom k bs).i = s.i := by
  rw [State.setRegsFrom_eq]

@[simp] theorem State.setRegsFrom_pc (bs : List Byte) (k : Nat) (s : State) : (s.setRegsFrom k bs).pc = s.pc := by
  rw [State.setRegsFrom_eq]

@[simp] theorem State.setRegsFrom_stack (bs : List Byte) (k : Nat) (s : State) : (s.setRegsFrom k bs).stack = s.stack := by
  rw [State.setRegsFrom_eq]

@[simp] theorem State.setRegsFrom_sp (bs : List Byte) (k : Nat) (s : State) : (s.setRegsFrom k bs).sp = s.sp := by
  rw [State.setRegsFrom_eq]

@[simp] theorem State.setRegsFrom_dt (bs : List Byte) (k : Nat) (s : State) : (s.setRegsFrom k bs).dt = s.dt := by
  rw [State.setRegsFrom_eq]

@[simp] theorem State.setRegsFrom_st (bs : List Byte) (k : Nat) (s : State) : (s.setRegsFrom k bs).st = s.st := by
  rw [State.setRegsFrom_eq]

@[simp] theorem State.setRegsFrom_mem (bs : List Byte) (k : Nat) (s : State) : (s.setRegsFrom k bs).mem = s.mem := by
  rw [State.setRegsFrom_eq]

@[simp] theorem State.setRegsFrom_fb (bs : List Byte) (k : Nat) (s : State) : (s.setRegsFrom k bs).fb = s.fb := by
  rw [State.setRegsFrom_eq]

@[simp] theorem State.setRegsFrom_wait (bs : List Byte) (k : Nat) (s : State) : (s.setRegsFrom k bs).wait = s.wait := by
  rw [State.setRegsFrom_eq]

@[simp] theorem State.setRegsFrom_wreg (bs : List Byte) (k : Nat) (s : State) : (s.setRegsFrom k bs).wreg = s.wreg := by
  rw [State.setRegsFrom_eq]

@[simp] theorem State.setRegsFrom_fault (bs : List Byte) (k : Nat) (s : State) : (s.setRegsFrom k bs).fault = s.fault := by
  rw [State.setRegsFrom_eq]

@[simp] theorem State.setRegsFrom_changed (bs : List Byte) (k : Nat) (s : State) : (s.setRegsFrom k bs).changed = s.changed := by
  rw [State.setRegsFrom_eq]

@[simp] theorem State.setRegsFrom_lifecycle (bs : List Byte) (k : Nat) (s : State) : (s.setRegsFrom k bs).lifecycle = s.lifecycle := by
  rw [State.setRegsFrom_eq]

@[simp] theorem State.setRegsFrom_inputs (bs : List Byte) (k : Nat) (s : State) : (s.setRegsFrom k bs).inputs = s.inputs := by
  rw [State.setRegsFrom_eq]

@[simp] theorem State.setRegsFrom_stepCount (bs : List Byte) (k : Nat) (s : State) : (s.setRegsFrom k bs).stepCount = s.stepCount := by
  rw [State.setRegsFrom_eq]

/-- Every register after a run of bytes is written from register `k` on (R145). -/
theorem State.reg_setRegsFrom (bs : List Byte) (k : Nat) (s : State) (r : Reg) :
    (s.setRegsFrom k bs).reg r =
      if k ≤ r.val ∧ r.val < k + bs.length then bs.getD (r.val - k) 0 else s.reg r := by
  induction bs generalizing k s with
  | nil => simp [State.setRegsFrom]
  | cons b bs ih =>
    simp only [State.setRegsFrom, ih, List.length_cons]
    by_cases hk : r.val = k
    · have hk16 : k < 16 := hk ▸ r.isLt
      have hr : r = ⟨k, hk16⟩ := Fin.ext hk
      subst hr
      simp [hk16]
    · have hreg : (if h : k < 16 then s.setReg ⟨k, h⟩ b else s).reg r = s.reg r := by
        split
        · rw [State.reg_setReg, if_neg (by rintro rfl; exact hk rfl)]
        · rfl
      rw [hreg]
      by_cases hin : k + 1 ≤ r.val ∧ r.val < k + 1 + bs.length
      · obtain ⟨j, hj⟩ : ∃ j, r.val - k = j + 1 := ⟨r.val - k - 1, by omega⟩
        rw [if_pos hin, if_pos (by omega), hj, show r.val - (k + 1) = j by omega]
        simp
      · rw [if_neg hin, if_neg (by omega)]

/-! ### The Load (R191 to R193) -/

/-- A Load in time, of a program that fits (R192). -/
theorem load_of_fits (rom : List Byte) (s : State) (h : s.lifecycle = .created) (hr : rom.length ≤ 3584) :
    load rom s = .next { s with mem := s.mem.writeList Config.progBase rom, lifecycle := .loaded } := by
  simp only [load, h, Config.romMax, if_pos hr]

/-- A Load keeps the canonical form of memory. -/
theorem load_wf (rom : List Byte) (s t : State) (h : load rom s = .next t) (hs : s.mem.wf = true) :
    t.mem.wf = true := by
  unfold load at h
  split at h
  · split at h
    · rename_i hr
      cases h
      exact Memory.wf_writeList rom s.mem _ (by simp only [Config.romMax] at hr; simp only [Config.progBase, memSize_eq]; omega) hs
    · cases h
  · cases h
  · cases h

/-- A Load in time, of a program that does not fit (R193). -/
theorem load_of_too_large (rom : List Byte) (s : State) (h : s.lifecycle = .created) (hr : rom.length > 3584) :
    load rom s = .fault (.romTooLarge { s.latch .romTooLarge with lifecycle := .loaded }) := by
  simp only [load, h, Config.romMax, if_neg (Nat.not_le.2 hr)]

/-- A Load out of time (R191, decision D16). -/
theorem load_of_late (rom : List Byte) (s : State) (h : s.lifecycle ≠ .created) :
    load rom s = .refused .loadOutOfOrder := by
  unfold load
  cases hl : s.lifecycle <;> simp_all

/-! ### Keys (R56, R84) -/

/-- A register names a key exactly when its value is below 16. -/
theorem keyOf_eq_some (b : Byte) (k : Key) : keyOf b = some k ↔ k.val = b.toNat := by
  unfold keyOf
  split
  · simp [Fin.ext_iff, eq_comm]
  · rename_i h; simp; omega

theorem keyOf_eq_none (b : Byte) : keyOf b = none ↔ 15 < b.toNat := by
  unfold keyOf
  split
  · simp; omega
  · simp; omega

theorem scanOrder_eq : scanOrder = List.finRange 16 := by decide

/-- The scan answers a key exactly when it is held and no lower one is (R84). -/
theorem lowestHeld_eq_some (keys : Word) (k : Key) :
    lowestHeld keys = some k ↔ keys.getLsbD k.val = true ∧ ∀ j < k, keys.getLsbD j.val = false := by
  rw [lowestHeld, List.find?_eq_some_iff_getElem]
  simp only [scanOrder_eq, keyHeld, List.getElem_finRange, List.length_finRange]
  constructor
  · rintro ⟨hk, i, hi, rfl, hlow⟩
    refine ⟨hk, fun j hj => ?_⟩
    simpa using hlow j.val hj
  · rintro ⟨hk, hlow⟩
    exact ⟨hk, k.val, k.isLt, by simp, fun j hj => by simpa using hlow ⟨j, by omega⟩ hj⟩

/-- The scan answers nothing exactly when no key is held. -/
theorem lowestHeld_eq_none (keys : Word) : lowestHeld keys = none ↔ ∀ k : Key, keys.getLsbD k.val = false := by
  simp [lowestHeld, scanOrder_eq, keyHeld]

end Sys2Proof.Machine
end

