-- ==== Sys2Proof/Laws/Draw.lean ====
section
/-! SUPPORT. What drawing does, pixel by pixel: the loops of `Dxyn` (spec/45_display.md R151) visit no pixel
twice, so each pixel is XORed with the sprite's bit on it and the collision compares with the screen before
the draw. -/

namespace Sys2Proof.Machine

open Sys2Proof

/-- Some of the sprite byte's bits `bit`, ..., `bit + left - 1`, drawn from column `col` on, is 1 and lands on
column `c`. -/
def RowCovers (col : Nat) (b : Byte) (left bit : Nat) (c : Col) : Prop :=
  ∃ j < left, (col + bit + j) % 64 = c.val ∧ spriteBit b (bit + j) = true

theorem RowCovers.zero (col : Nat) (b : Byte) (bit : Nat) (c : Col) : ¬ RowCovers col b 0 bit c := by
  simp [RowCovers]

theorem RowCovers.succ (col : Nat) (b : Byte) (left bit : Nat) (c : Col) :
    RowCovers col b (left + 1) bit c ↔
      ((col + bit) % 64 = c.val ∧ spriteBit b bit = true) ∨ RowCovers col b left (bit + 1) c := by
  constructor
  · rintro ⟨j, hj, hc, hb⟩
    cases j with
    | zero => exact .inl ⟨by simpa using hc, by simpa using hb⟩
    | succ j => exact .inr ⟨j, by omega, by rw [← hc]; congr 1; omega, by rw [← hb]; congr 1; omega⟩
  · rintro (⟨hc, hb⟩ | ⟨j, hj, hc, hb⟩)
    · exact ⟨0, by omega, by simpa using hc, by simpa using hb⟩
    · exact ⟨j + 1, by omega, by rw [← hc]; congr 1; omega, by rw [← hb]; congr 1; omega⟩

/-- Within 64 columns no column is visited again. -/
theorem RowCovers.not_again (col : Nat) (b : Byte) (left bit : Nat) (c : Col) (hl : left < 64)
    (hc : (col + bit) % 64 = c.val) : ¬ RowCovers col b left (bit + 1) c := by
  rintro ⟨j, hj, hcj, -⟩
  omega

theorem plotBit_pixel (col : Nat) (new : Bool) (k : Drawn (Vector Bool 64)) (c : Col) :
    (plotBit col new k).pixels[c] = if col % 64 = c.val then (k.pixels[c] ^^ new) else k.pixels[c] := by
  simp only [plotBit, Fin.getElem_fin, Vector.getElem_set, Fin.val_ofNat]
  split
  · rename_i h; simp [h]
  · rfl

/-- A row after some bits of a sprite byte: each pixel is XORed with the bit that lands on it. -/
theorem plotBits_pixel (b : Byte) (col left bit : Nat) (k : Drawn (Vector Bool 64)) (c : Col) (hl : left ≤ 64) :
    (plotBits col b left bit k).pixels[c] = true ↔
      (k.pixels[c] = true ↔ ¬ RowCovers col b left bit c) := by
  induction left generalizing bit k with
  | zero => simp [plotBits, RowCovers.zero]
  | succ left ih =>
    rw [plotBits, ih _ _ (by omega), plotBit_pixel, RowCovers.succ]
    by_cases hc : (col + bit) % 64 = c.val
    · have := RowCovers.not_again col b left bit c (by omega) hc
      cases hp : k.pixels[c] <;> cases hb : spriteBit b bit <;> simp_all
    · simp [hc]

/-- The collision after some bits of a sprite byte: some bit is 1 where the row was lit. -/
theorem plotBits_coll (b : Byte) (col left bit : Nat) (k : Drawn (Vector Bool 64)) (hl : left ≤ 64) :
    (plotBits col b left bit k).coll = true ↔
      k.coll = true ∨ ∃ c : Col, RowCovers col b left bit c ∧ k.pixels[c] = true := by
  induction left generalizing bit k with
  | zero => simp [plotBits, RowCovers.zero]
  | succ left ih =>
    rw [plotBits, ih _ _ (by omega)]
    have key : ∀ c : Col, (RowCovers col b left (bit + 1) c ∧
        (plotBit (col + bit) (spriteBit b bit) k).pixels[c] = true) ↔
        (RowCovers col b left (bit + 1) c ∧ k.pixels[c] = true) := by
      intro c
      refine and_congr_right fun hr => ?_
      rw [plotBit_pixel, if_neg fun hc => RowCovers.not_again col b left bit c (by omega) hc hr]
    simp only [key, RowCovers.succ]
    constructor
    · rintro (h | ⟨c, hr, hp⟩)
      · simp only [plotBit, Bool.or_eq_true, Bool.and_eq_true] at h
        rcases h with h | ⟨hp, hb⟩
        · exact .inl h
        · exact .inr ⟨Fin.ofNat 64 (col + bit), .inl ⟨by simp, hb⟩, hp⟩
      · exact .inr ⟨c, .inr hr, hp⟩
    · rintro (h | ⟨c, ⟨hc, hb⟩ | hr, hp⟩)
      · exact .inl (by simp [plotBit, h])
      · have hcc : Fin.ofNat 64 (col + bit) = c := Fin.ext (by simpa using hc)
        exact .inl (by simp only [plotBit, hcc, hp, hb]; simp)
      · exact .inr ⟨c, hr, hp⟩

/-- The sprite byte `b` drawn at row `row`, column `col` sets a bit on pixel (`y`, `x`). -/
def ByteCovers (row col : Nat) (b : Byte) (y : Row) (x : Col) : Prop :=
  row % 32 = y.val ∧ RowCovers col b 8 0 x

theorem plotByte_pixel (row col : Nat) (b : Byte) (k : Drawn Grid) (y : Row) (x : Col) :
    Grid.pixel (plotByte row col b k).pixels y x = true ↔
      (Grid.pixel k.pixels y x = true ↔ ¬ ByteCovers row col b y x) := by
  unfold ByteCovers
  by_cases hy : row % 32 = y.val
  · obtain rfl : Fin.ofNat 32 row = y := Fin.ext (by simpa using hy)
    have hset : Grid.pixel (plotByte row col b k).pixels (Fin.ofNat 32 row) x =
        (plotBits col b 8 0 { pixels := k.pixels[Fin.ofNat 32 row], coll := k.coll }).pixels[x] := by
      simp [Grid.pixel, plotByte]
    rw [hset, plotBits_pixel _ _ _ _ _ _ (by omega)]
    simp [Grid.pixel]
  · have hset : Grid.pixel (plotByte row col b k).pixels y x = Grid.pixel k.pixels y x := by
      simp only [Grid.pixel, plotByte, Fin.getElem_fin, Vector.getElem_set, Fin.val_ofNat, if_neg hy]
    simp [hset, hy]

theorem plotByte_coll (row col : Nat) (b : Byte) (k : Drawn Grid) :
    (plotByte row col b k).coll = true ↔
      k.coll = true ∨ ∃ y x, ByteCovers row col b y x ∧ Grid.pixel k.pixels y x = true := by
  simp only [plotByte]
  rw [plotBits_coll _ _ _ _ _ (by omega)]
  refine or_congr_right ⟨?_, ?_⟩
  · rintro ⟨c, hr, hp⟩
    exact ⟨Fin.ofNat 32 row, c, ⟨by simp, hr⟩, hp⟩
  · rintro ⟨y, x, ⟨hy, hr⟩, hp⟩
    obtain rfl : Fin.ofNat 32 row = y := Fin.ext (by simpa using hy)
    exact ⟨x, hr, hp⟩

/-- The sprite drawn with its upper left corner at row `row`, column `col` sets a bit on pixel (`y`, `x`). -/
def SpriteHits (row col : Nat) (bs : List Byte) (y : Row) (x : Col) : Prop :=
  ∃ j < bs.length, ByteCovers (row + j) col (bs.getD j 0) y x

theorem SpriteHits.nil (row col : Nat) (y : Row) (x : Col) : ¬ SpriteHits row col [] y x := by
  simp [SpriteHits]

theorem SpriteHits.cons (row col : Nat) (b : Byte) (bs : List Byte) (y : Row) (x : Col) :
    SpriteHits row col (b :: bs) y x ↔ ByteCovers row col b y x ∨ SpriteHits (row + 1) col bs y x := by
  constructor
  · rintro ⟨j, hj, h⟩
    cases j with
    | zero => exact .inl h
    | succ j =>
      refine .inr ⟨j, by simpa using hj, ?_⟩
      rwa [show row + 1 + j = row + (j + 1) by omega]
  · rintro (h | ⟨j, hj, h⟩)
    · exact ⟨0, by simp, h⟩
    · refine ⟨j + 1, by simpa using hj, ?_⟩
      rwa [show row + (j + 1) = row + 1 + j by omega]

/-- Within 32 rows no row is visited again. -/
theorem SpriteHits.not_again (row col : Nat) (b : Byte) (bs : List Byte) (y : Row) (x : Col)
    (hl : bs.length < 32) (h : ByteCovers row col b y x) : ¬ SpriteHits (row + 1) col bs y x := by
  rintro ⟨j, hj, hy, -⟩
  have := h.1
  omega

theorem plotBytes_pixel (bs : List Byte) (row col : Nat) (k : Drawn Grid) (y : Row) (x : Col)
    (hl : bs.length ≤ 32) :
    Grid.pixel (plotBytes row col bs k).pixels y x = true ↔
      (Grid.pixel k.pixels y x = true ↔ ¬ SpriteHits row col bs y x) := by
  induction bs generalizing row k with
  | nil => simp [plotBytes, SpriteHits.nil]
  | cons b bs ih =>
    simp only [List.length_cons] at hl
    rw [plotBytes, ih _ _ (by omega), plotByte_pixel, SpriteHits.cons]
    by_cases hb : ByteCovers row col b y x
    · have := SpriteHits.not_again row col b bs y x (by omega) hb
      simp [hb, this]
    · simp [hb]

theorem plotBytes_coll (bs : List Byte) (row col : Nat) (k : Drawn Grid) (hl : bs.length ≤ 32) :
    (plotBytes row col bs k).coll = true ↔
      k.coll = true ∨ ∃ y x, SpriteHits row col bs y x ∧ Grid.pixel k.pixels y x = true := by
  induction bs generalizing row k with
  | nil => simp [plotBytes, SpriteHits.nil]
  | cons b bs ih =>
    simp only [List.length_cons] at hl
    rw [plotBytes, ih _ _ (by omega), plotByte_coll]
    have key : ∀ y x, (SpriteHits (row + 1) col bs y x ∧ Grid.pixel (plotByte row col b k).pixels y x = true) ↔
        (SpriteHits (row + 1) col bs y x ∧ Grid.pixel k.pixels y x = true) := by
      intro y x
      refine and_congr_right fun hs => ?_
      have hb : ¬ ByteCovers row col b y x := fun hb =>
        SpriteHits.not_again row col b bs y x (by omega) hb hs
      rw [plotByte_pixel]; simp [hb]
    simp only [key, SpriteHits.cons, or_and_right, exists_or, or_assoc]

/-- Every pixel after a sprite is drawn: lit exactly if it was lit or the sprite sets a bit on it, and not both
(R151). -/
theorem drawSprite_pixel (vx vy : Byte) (bs : List Byte) (g : Grid) (y : Row) (x : Col) (hl : bs.length ≤ 32) :
    Grid.pixel (drawSprite vx vy bs g).pixels y x = true ↔
      (g.pixel y x = true ↔ ¬ SpriteHits vy.toNat vx.toNat bs y x) :=
  plotBytes_pixel bs vy.toNat vx.toNat _ y x hl

/-- The collision of a draw: the sprite sets a bit on a pixel that was lit (R151). -/
theorem drawSprite_coll (vx vy : Byte) (bs : List Byte) (g : Grid) (hl : bs.length ≤ 32) :
    (drawSprite vx vy bs g).coll = true ↔
      ∃ y x, SpriteHits vy.toNat vx.toNat bs y x ∧ g.pixel y x = true := by
  rw [drawSprite, plotBytes_coll bs vy.toNat vx.toNat _ hl]; simp

/-- The sprite in memory, as a draw reads it, sets the bits the spec says (R151, R152). -/
theorem spriteHits_readList (s : State) (vx vy : Byte) (n : Nat) (y : Row) (x : Col) :
    SpriteHits vy.toNat vx.toNat (s.mem.readList s.i.toNat n) y x ↔ SpriteCovers s vx vy n y x := by
  unfold SpriteHits SpriteCovers ByteCovers RowCovers
  simp only [Memory.length_readList, spriteBit, State.byteAt, Nat.add_zero, Nat.zero_add]
  constructor
  · rintro ⟨row, hr, hy, bit, hb, hx, hs⟩
    rw [Memory.getD_readList _ _ _ _ hr] at hs
    exact ⟨row, hr, bit, hb, hy, hx, hs⟩
  · rintro ⟨row, hr, bit, hb, hy, hx, hs⟩
    refine ⟨row, hr, hy, bit, hb, hx, ?_⟩
    rwa [Memory.getD_readList _ _ _ _ hr]

end Sys2Proof.Machine
end

