-- ==== Sys2Proof/Laws/PerInstr.lean ====
section
/-! SUPPORT. Statements made of every instruction, one lemma per constructor: every instruction encodes to a
word of its own row of the opcode map (spec/30_encoding.md R65, R66). -/

namespace Sys2Proof.Laws.EncodesItsRow

open Sys2Proof

/-- The encoded word has exactly the fixed bits of the instruction's row. -/
def Statement (i : Instr) : Prop := encode i &&& i.row.mask = i.row.fixed

theorem mask_A (a : Nibble) (addr : Addr) : encodeA a addr &&& 0xF000 = encodeA a 0 := by
  show (a ++ addr) &&& (0xF#4 ++ 0#12) = a ++ 0#12
  rw [BitVec.and_append]; congr 1
  · exact BitVec.and_allOnes
  · exact BitVec.and_zero

theorem mask_XK (a : Nibble) (x : Reg) (kk : Byte) : encodeXK a x kk &&& 0xF000 = encodeXK a 0 0 := by
  show (a ++ nibbleOf x) ++ kk &&& ((0xF#4 ++ 0#4) ++ 0#8) = (a ++ 0#4) ++ 0#8
  rw [BitVec.and_append, BitVec.and_append]; congr 1
  · congr 1
    · exact BitVec.and_allOnes
    · exact BitVec.and_zero
  · exact BitVec.and_zero

theorem mask_XL (a : Nibble) (x : Reg) (kk : Byte) : encodeXK a x kk &&& 0xF0FF = encodeXK a 0 kk := by
  show (a ++ nibbleOf x) ++ kk &&& ((0xF#4 ++ 0#4) ++ 0xFF#8) = (a ++ 0#4) ++ kk
  rw [BitVec.and_append, BitVec.and_append]; congr 1
  · congr 1
    · exact BitVec.and_allOnes
    · exact BitVec.and_zero
  · exact BitVec.and_allOnes

theorem mask_XY (a : Nibble) (x y n : Fin 16) : encodeXYN a x y n &&& 0xF00F = encodeXYN a 0 0 n := by
  show ((a ++ nibbleOf x) ++ nibbleOf y) ++ nibbleOf n &&& (((0xF#4 ++ 0#4) ++ 0#4) ++ 0xF#4) =
    ((a ++ 0#4) ++ 0#4) ++ nibbleOf n
  rw [BitVec.and_append, BitVec.and_append, BitVec.and_append]; congr 1
  · congr 1
    · congr 1
      · exact BitVec.and_allOnes
      · exact BitVec.and_zero
    · exact BitVec.and_zero
  · exact BitVec.and_allOnes

theorem mask_XYN (a : Nibble) (x y n : Fin 16) : encodeXYN a x y n &&& 0xF000 = encodeXYN a 0 0 0 := by
  show ((a ++ nibbleOf x) ++ nibbleOf y) ++ nibbleOf n &&& (((0xF#4 ++ 0#4) ++ 0#4) ++ 0#4) =
    ((a ++ 0#4) ++ 0#4) ++ 0#4
  rw [BitVec.and_append, BitVec.and_append, BitVec.and_append]; congr 1
  · congr 1
    · congr 1
      · exact BitVec.and_allOnes
      · exact BitVec.and_zero
    · exact BitVec.and_zero
  · exact BitVec.and_zero

theorem cls : Statement (.cls) := rfl
theorem ret : Statement (.ret) := rfl
theorem jp (addr : Addr) : Statement (.jp addr) := mask_A 0x1 addr
theorem call (addr : Addr) : Statement (.call addr) := mask_A 0x2 addr
theorem seImm (x : Reg) (kk : Byte) : Statement (.seImm x kk) := mask_XK 0x3 x kk
theorem sneImm (x : Reg) (kk : Byte) : Statement (.sneImm x kk) := mask_XK 0x4 x kk
theorem seReg (x y : Reg) : Statement (.seReg x y) := mask_XY 0x5 x y 0x0
theorem ldImm (x : Reg) (kk : Byte) : Statement (.ldImm x kk) := mask_XK 0x6 x kk
theorem addImm (x : Reg) (kk : Byte) : Statement (.addImm x kk) := mask_XK 0x7 x kk
theorem ldReg (x y : Reg) : Statement (.ldReg x y) := mask_XY 0x8 x y 0x0
theorem orReg (x y : Reg) : Statement (.orReg x y) := mask_XY 0x8 x y 0x1
theorem andReg (x y : Reg) : Statement (.andReg x y) := mask_XY 0x8 x y 0x2
theorem xorReg (x y : Reg) : Statement (.xorReg x y) := mask_XY 0x8 x y 0x3
theorem addReg (x y : Reg) : Statement (.addReg x y) := mask_XY 0x8 x y 0x4
theorem sub (x y : Reg) : Statement (.sub x y) := mask_XY 0x8 x y 0x5
theorem shr (x y : Reg) : Statement (.shr x y) := mask_XY 0x8 x y 0x6
theorem subn (x y : Reg) : Statement (.subn x y) := mask_XY 0x8 x y 0x7
theorem shl (x y : Reg) : Statement (.shl x y) := mask_XY 0x8 x y 0xE
theorem sneReg (x y : Reg) : Statement (.sneReg x y) := mask_XY 0x9 x y 0x0
theorem ldI (addr : Addr) : Statement (.ldI addr) := mask_A 0xA addr
theorem jpV0 (addr : Addr) : Statement (.jpV0 addr) := mask_A 0xB addr
theorem rnd (x : Reg) (kk : Byte) : Statement (.rnd x kk) := mask_XK 0xC x kk
theorem drw (x y : Reg) (n : Fin 16) : Statement (.drw x y n) := mask_XYN 0xD x y n
theorem skp (x : Reg) : Statement (.skp x) := mask_XL 0xE x 0x9E
theorem sknp (x : Reg) : Statement (.sknp x) := mask_XL 0xE x 0xA1
theorem ldVxDt (x : Reg) : Statement (.ldVxDt x) := mask_XL 0xF x 0x07
theorem ldVxK (x : Reg) : Statement (.ldVxK x) := mask_XL 0xF x 0x0A
theorem ldDtVx (x : Reg) : Statement (.ldDtVx x) := mask_XL 0xF x 0x15
theorem ldStVx (x : Reg) : Statement (.ldStVx x) := mask_XL 0xF x 0x18
theorem addI (x : Reg) : Statement (.addI x) := mask_XL 0xF x 0x1E
theorem ldF (x : Reg) : Statement (.ldF x) := mask_XL 0xF x 0x29
theorem ldB (x : Reg) : Statement (.ldB x) := mask_XL 0xF x 0x33
theorem stRegs (x : Reg) : Statement (.stRegs x) := mask_XL 0xF x 0x55
theorem ldRegs (x : Reg) : Statement (.ldRegs x) := mask_XL 0xF x 0x65

end Sys2Proof.Laws.EncodesItsRow
end

