-- ==== Sys2Proof/Laws/Step.lean ====
section
/-! SUPPORT. What a Step can answer, said once (spec/40_step_cycle.md R82): Halted, key-wait, or Running with its
fetch, its decode and its one instruction. Proofs about `step` cite these three and unfold no part of it. -/

namespace Sys2Proof.Machine

open Sys2Proof

/-- A Step of a Halted block (R83). -/
theorem step_halted (s : State) (c : Cause) (h : s.fault = some c) : step s = .fault (c.fault (s.endStep false)) := by
  simp only [step, oneStep, h, haltedStep]

/-- A Step of a waiting block (R84). -/
theorem step_awaitingKey (s : State) (h : s.AwaitingKey) :
    step s = match lowestHeld s.keys with
      | some k => .next ((s.setReg s.wreg (keyByte k)).leaveWait.endStep false)
      | none => .next (s.endStep false) := by
  cases hk : lowestHeld s.keys <;> simp [step, oneStep, h.1, h.2, keyWaitStep, hk]

/-- The opcode at `PC` is the byte pair as the decoder puts it together (R46, R61). -/
theorem opcodeAt_eq (s : State) :
    opcodeAt s = assembleOpcode (s.byteAt s.pc.toNat) (s.byteAt (s.pc.toNat + 1)) := by
  apply BitVec.eq_of_toNat_eq
  rw [toNat_assembleOpcode, opcodeAt, BitVec.toNat_or, BitVec.toNat_shiftLeft, BitVec.toNat_setWidth,
    BitVec.toNat_setWidth]
  generalize s.byteAt s.pc.toNat = hi
  generalize s.byteAt (s.pc.toNat + 1) = lo
  have hlo := lo.isLt
  have hhi := hi.isLt
  have hor := Nat.shiftLeft_add_eq_or_of_lt hlo hi.toNat
  rw [Nat.shiftLeft_eq] at hor
  rw [Nat.mod_eq_of_lt (by omega : lo.toNat < 2 ^ 16), Nat.mod_eq_of_lt (by omega : hi.toNat < 2 ^ 16),
    Nat.shiftLeft_eq, Nat.mod_eq_of_lt (by omega)]
  omega

/-- The fetch reads both bytes exactly when `PC + 1` lies inside memory (R86). -/
theorem State.fetch_eq (s : State) :
    s.fetch = if s.pc.toNat + 1 > 0xFFF then none else some [s.byteAt s.pc.toNat, s.byteAt (s.pc.toNat + 1)] := by
  have hin : inMemory s.pc.toNat 2 = !decide (s.pc.toNat + 1 > 0xFFF) := by
    simp only [inMemory, memSize_eq]
    by_cases hp : s.pc.toNat + 1 > 0xFFF
    · simp [hp]; omega
    · simp [hp]; omega
  simp only [State.fetch, State.loadBytes, hin]
  by_cases hp : s.pc.toNat + 1 > 0xFFF <;> simp [hp, Memory.readList, State.byteAt]

/-- A Running Step (R82 line 3, R85 to R87): the timers tick, then the fetch, the decode and the one
instruction. -/
theorem step_running (s : State) (h : s.Running) :
    step s =
      if s.pc.toNat + 1 > 0xFFF then raise .fetchOob s.tickTimers
      else match decodeWord (opcodeAt s) with
        | some i => exec i s.tickTimers
        | none => raise .unimplOpcode s.tickTimers := by
  simp only [step, oneStep, h.1, h.2, Bool.false_eq_true, if_false, runningStep, fetchExecute, State.fetch_eq,
    State.byteAt_tickTimers, State.tickTimers_pc, opcodeAt_eq]
  by_cases hp : s.pc.toNat + 1 > 0xFFF
  · simp only [hp, if_true, orRaise]
  · simp only [hp, if_false, orRaise, decode]
    cases decodeWord (assembleOpcode (s.byteAt s.pc.toNat) (s.byteAt (s.pc.toNat + 1))) <;> rfl

end Sys2Proof.Machine
end

