-- ==== Sys2Proof/Tests/Slice0.lean ====
section
/-! SUPPORT. The model's own tests. Expected values come from spec/95_test_vectors.md and from the encodings of
spec/30_encoding.md, never from the model; each test names its vector. The last part shows, for every obligation
with hypotheses, a state and operands that meet them. -/

namespace Sys2Proof.Tests

open Sys2Proof Sys2Proof.Machine

/-! ### Ill-formed words (vectors T-X4 to T-X12) -/

theorem test_illegal_zero : legalOpcode 0x0000 = false ∧ decodeWord 0x0000 = none := by decide
theorem test_illegal_near_cls : legalOpcode 0x01E0 = false ∧ decodeWord 0x01E0 = none := by decide
theorem test_illegal_five : legalOpcode 0x5121 = false ∧ decodeWord 0x5121 = none := by decide
theorem test_illegal_eight : legalOpcode 0x8128 = false ∧ decodeWord 0x8128 = none := by decide
theorem test_illegal_nine : legalOpcode 0x912F = false ∧ decodeWord 0x912F = none := by decide
theorem test_illegal_e : legalOpcode 0xE19F = false ∧ decodeWord 0xE19F = none := by decide
theorem test_illegal_f : legalOpcode 0xF175 = false ∧ decodeWord 0xF175 = none := by decide
theorem test_decode_truncated : decode [0x6A] = .error .truncated := by decide
theorem test_decode_byte_order : decode [0xE0, 0x00] = .error (.unimplemented 0xE000) := by decide
theorem test_map_has_34_rows : opcodeMap.length = 34 := by decide

/-! ### One word of every row, written out from R66: the instruction it stands for, and back -/

theorem test_word_cls : decodeWord 0b0000000011100000 = some .cls := by decide
theorem test_word_ret : decodeWord 0b0000000011101110 = some .ret := by decide
theorem test_word_jp : decodeWord 0b0001101010111100 = some (.jp 0xABC) := by decide
theorem test_word_call : decodeWord 0b0010001000010000 = some (.call 0x210) := by decide
theorem test_word_seImm : decodeWord 0b0011101000111100 = some (.seImm 10 0x3C) := by decide
theorem test_word_sneImm : decodeWord 0b0100101000111100 = some (.sneImm 10 0x3C) := by decide
theorem test_word_seReg : decodeWord 0b0101000100100000 = some (.seReg 1 2) := by decide
theorem test_word_ldImm : decodeWord 0b0110101000111100 = some (.ldImm 10 0x3C) := by decide
theorem test_word_addImm : decodeWord 0b0111101000000001 = some (.addImm 10 0x01) := by decide
theorem test_word_ldReg : decodeWord 0b1000000100100000 = some (.ldReg 1 2) := by decide
theorem test_word_or : decodeWord 0b1000000100100001 = some (.orReg 1 2) := by decide
theorem test_word_and : decodeWord 0b1000000100100010 = some (.andReg 1 2) := by decide
theorem test_word_xor : decodeWord 0b1000000100100011 = some (.xorReg 1 2) := by decide
theorem test_word_addReg : decodeWord 0b1000000100100100 = some (.addReg 1 2) := by decide
theorem test_word_sub : decodeWord 0b1000000100100101 = some (.sub 1 2) := by decide
theorem test_word_shr : decodeWord 0b1000000100100110 = some (.shr 1 2) := by decide
theorem test_word_subn : decodeWord 0b1000000100100111 = some (.subn 1 2) := by decide
theorem test_word_shl : decodeWord 0b1000101010111110 = some (.shl 10 11) := by decide
theorem test_word_sneReg : decodeWord 0b1001000100100000 = some (.sneReg 1 2) := by decide
theorem test_word_ldI : decodeWord 0b1010001100000000 = some (.ldI 0x300) := by decide
theorem test_word_jpV0 : decodeWord 0b1011001100000000 = some (.jpV0 0x300) := by decide
theorem test_word_rnd : decodeWord 0b1100000100001111 = some (.rnd 1 0x0F) := by decide
theorem test_word_drw : decodeWord 0b1101000100100101 = some (.drw 1 2 5) := by decide
theorem test_word_skp : decodeWord 0b1110000110011110 = some (.skp 1) := by decide
theorem test_word_sknp : decodeWord 0b1110000110100001 = some (.sknp 1) := by decide
theorem test_word_ldVxDt : decodeWord 0b1111000100000111 = some (.ldVxDt 1) := by decide
theorem test_word_ldVxK : decodeWord 0b1111001000001010 = some (.ldVxK 2) := by decide
theorem test_word_ldDtVx : decodeWord 0b1111000100010101 = some (.ldDtVx 1) := by decide
theorem test_word_ldStVx : decodeWord 0b1111000100011000 = some (.ldStVx 1) := by decide
theorem test_word_addI : decodeWord 0b1111000100011110 = some (.addI 1) := by decide
theorem test_word_ldF : decodeWord 0b1111000000101001 = some (.ldF 0) := by decide
theorem test_word_ldB : decodeWord 0b1111000000110011 = some (.ldB 0) := by decide
theorem test_word_stRegs : decodeWord 0b1111001001010101 = some (.stRegs 2) := by decide
theorem test_word_ldRegs : decodeWord 0b1111111101100101 = some (.ldRegs 15) := by decide

theorem test_encode_by_format : encode (.jp 0xABC) = 0x1ABC ∧ encode (.ldImm 10 0x3C) = 0x6A3C ∧
    encode (.shl 10 11) = 0x8ABE ∧ encode (.drw 1 2 5) = 0xD125 ∧ encode (.ldRegs 15) = 0xFF65 := by decide

/-! ### One Step (spec/95_test_vectors.md Part 2) -/

/-- The reset state with an opcode where the next Step fetches it. -/
def start (op : Word) (s : State := State.reset) : State := placeInstruction s op

/-- The answer is a next state that meets a check. -/
def nextIs (r : Result) (p : State → Bool) : Bool :=
  match r with
  | .next t => p t
  | .fault _ => false
  | .refused _ => false

/-- The answer is a fault of a cause, latched, and the Halted state meets a check. -/
def haltsWith (r : Result) (c : Cause) (p : State → Bool) : Bool :=
  match r with
  | .next _ => false
  | .fault f => f.cause == c && f.halted.fault == some c && p f.halted
  | .refused _ => false

/-- A state with the inputs of its next Step. -/
def given (keys : Word) (rnd : Byte) (s : State) : State := { s with inputs := [⟨keys, rnd⟩] }

/-- Reset with `V1` and `V2` set. -/
def v12 (a b : Byte) : State := (State.reset.setReg 1 a).setReg 2 b

-- T-E9: with nothing loaded the first Step finds opcode 0000.
theorem test_reset_first_step : haltsWith (step State.reset) .unimplOpcode (fun t => t.pc == 0x200) = true := by
  decide

-- T-F1, T-F4
theorem test_jp : nextIs (step (start 0x1204)) (fun t => t.pc == 0x204) = true := by decide
theorem test_jp_top : nextIs (step (start 0x1FFF)) (fun t => t.pc == 0xFFF) = true := by decide

-- T-F6, T-F7
theorem test_call_sixteenth : nextIs (step (start 0x2ABC { State.reset with sp := 15 }))
    (fun t => t.pc == 0xABC && t.sp == 16 && t.stack[15] == 0x202 && t.stack[14] == 0) = true := by decide
theorem test_call_overflow : haltsWith (step (start 0x2ABC { State.reset with sp := 16 })) .stackOverflow
    (fun t => t.pc == 0x200 && t.sp == 16) = true := by decide

-- T-F8, T-F9
theorem test_ret : nextIs (step (start 0x00EE { State.reset with sp := 1, stack := State.reset.stack.set 0 0x206 }))
    (fun t => t.pc == 0x206 && t.sp == 0 && t.stack[0] == 0x206) = true := by decide
theorem test_ret_underflow : haltsWith (step (start 0x00EE)) .stackUnderflow
    (fun t => t.pc == 0x200 && t.sp == 0) = true := by decide

-- T-F11, T-F12
theorem test_jpV0 : nextIs (step (start 0xB300 ((State.reset.setReg 0 4).setReg 3 0x55)))
    (fun t => t.pc == 0x304) = true := by decide
theorem test_jpV0_no_wrap : nextIs (step (start 0xBFFF (State.reset.setReg 0 0xFF)))
    (fun t => t.pc == 0x10FE) = true := by decide

-- T-S1 to T-S10
theorem test_seImm : nextIs (step (start 0x3A3C (State.reset.setReg 10 0x3C))) (fun t => t.pc == 0x204) = true ∧
    nextIs (step (start 0x3A3C (State.reset.setReg 10 0x3D))) (fun t => t.pc == 0x202) = true := by decide
theorem test_sneImm : nextIs (step (start 0x4A3C (State.reset.setReg 10 0x3C))) (fun t => t.pc == 0x202) = true ∧
    nextIs (step (start 0x4A3C (State.reset.setReg 10 0x3D))) (fun t => t.pc == 0x204) = true := by decide
theorem test_seReg : nextIs (step (start 0x5120 (v12 7 7))) (fun t => t.pc == 0x204) = true ∧
    nextIs (step (start 0x5120 (v12 7 8))) (fun t => t.pc == 0x202) = true := by decide
theorem test_sneReg : nextIs (step (start 0x9120 (v12 7 8))) (fun t => t.pc == 0x204) = true ∧
    nextIs (step (start 0x9330 (v12 7 8))) (fun t => t.pc == 0x202) = true := by decide
-- T-S11
theorem test_skip_unchecked : nextIs (step (start 0x3000 { State.reset with pc := 0xFFC }))
    (fun t => t.pc == 0x1000) = true := by decide

-- T-A1, T-A3, T-A4
theorem test_ldImm : nextIs (step (start 0x6A3C)) (fun t => t.reg 10 == 0x3C && t.pc == 0x202) = true := by decide
theorem test_addImm_wraps : nextIs (step (start 0x7AFF (State.reset.setReg 10 2)))
    (fun t => t.reg 10 == 1 && t.reg 15 == 0) = true := by decide
theorem test_addImm_flag_kept : nextIs (step (start 0x7A01 ((State.reset.setReg 10 0x3C).setReg 15 0x55)))
    (fun t => t.reg 10 == 0x3D && t.reg 15 == 0x55) = true := by decide

-- T-A5 to T-A8
theorem test_ldReg : nextIs (step (start 0x8120 (v12 0x11 0x22)))
    (fun t => t.reg 1 == 0x22 && t.reg 2 == 0x22) = true := by decide
theorem test_or : nextIs (step (start 0x8121 ((v12 0xF0 0x3C).setReg 15 0x77)))
    (fun t => t.reg 1 == 0xFC && t.reg 15 == 0x77) = true := by decide
theorem test_and : nextIs (step (start 0x8122 ((v12 0xF0 0x3C).setReg 15 0x77)))
    (fun t => t.reg 1 == 0x30 && t.reg 15 == 0x77) = true := by decide
theorem test_xor : nextIs (step (start 0x8123 ((v12 0xF0 0x3C).setReg 15 0x77)))
    (fun t => t.reg 1 == 0xCC && t.reg 15 == 0x77) = true := by decide

-- T-A10, T-A11, T-A31, T-A32
theorem test_addReg_carry : nextIs (step (start 0x8124 (v12 0xF0 0x0F)))
    (fun t => t.reg 1 == 0xFF && t.reg 15 == 0) = true ∧
    nextIs (step (start 0x8124 (v12 0xF0 0x10))) (fun t => t.reg 1 == 0 && t.reg 15 == 1) = true := by decide
theorem test_addReg_flag_operand : nextIs (step (start 0x8F14 ((v12 0x20 0).setReg 15 0xF0)))
    (fun t => t.reg 15 == 0x10) = true ∧
    nextIs (step (start 0x81F4 ((v12 0xFF 0).setReg 15 1))) (fun t => t.reg 1 == 0 && t.reg 15 == 1) = true := by
  decide

-- T-A14, T-A15, T-A16
theorem test_sub : nextIs (step (start 0x8125 (v12 5 3))) (fun t => t.reg 1 == 2 && t.reg 15 == 1) = true ∧
    nextIs (step (start 0x8125 (v12 3 5))) (fun t => t.reg 1 == 0xFE && t.reg 15 == 0) = true := by decide
theorem test_sub_equal : nextIs (step (start 0x8125 ((v12 5 5).setReg 15 1)))
    (fun t => t.reg 1 == 0 && t.reg 15 == 0) = true := by decide

-- T-A18, T-A35
theorem test_shr : nextIs (step (start 0x8126 (v12 3 0xFF)))
    (fun t => t.reg 1 == 1 && t.reg 15 == 1 && t.reg 2 == 0xFF) = true := by decide
theorem test_shr_flag_operand : nextIs (step (start 0x8F06 (State.reset.setReg 15 3)))
    (fun t => t.reg 15 == 1) = true := by decide

-- T-A21, T-A22, T-A37
theorem test_subn : nextIs (step (start 0x8127 (v12 3 5))) (fun t => t.reg 1 == 2 && t.reg 15 == 1) = true ∧
    nextIs (step (start 0x8127 (v12 5 3))) (fun t => t.reg 1 == 0xFE && t.reg 15 == 0) = true := by decide
theorem test_subn_flag_operand : nextIs (step (start 0x8F17 ((v12 5 0).setReg 15 2)))
    (fun t => t.reg 15 == 3) = true := by decide

-- T-A24, T-A36
theorem test_shl : nextIs (step (start 0x812E (v12 0x81 0)))
    (fun t => t.reg 1 == 2 && t.reg 15 == 1) = true := by decide
theorem test_shl_flag_operand : nextIs (step (start 0x8F0E (State.reset.setReg 15 0x81)))
    (fun t => t.reg 15 == 2) = true := by decide

-- T-A27, T-A30
theorem test_rnd : nextIs (step (given 0 0xA7 (start 0xC10F))) (fun t => t.reg 1 == 7) = true := by decide
theorem test_rnd_flag_plain : nextIs (step (given 0 0xFF (start 0xCF0F))) (fun t => t.reg 15 == 0x0F) = true := by
  decide

-- T-M2
theorem test_ldI : nextIs (step (start 0xAFFF { State.reset with i := 0x1234 })) (fun t => t.i == 0xFFF) = true := by
  decide

-- T-M4, T-M5, T-M6
theorem test_addI_limit : nextIs (step (start 0xF11E { v12 0 0 with i := 0xFFF }))
    (fun t => t.i == 0xFFF && t.reg 15 == 0) = true ∧
    nextIs (step (start 0xF11E { v12 1 0 with i := 0xFFF })) (fun t => t.i == 0x1000 && t.reg 15 == 1) = true := by
  decide
theorem test_addI_wraps : nextIs (step (start 0xF11E { v12 0xFF 0 with i := 0xFFFF }))
    (fun t => t.i == 0xFE && t.reg 15 == 1) = true := by decide

-- T-M8, T-M11
theorem test_ldF : nextIs (step (start 0xF029 (State.reset.setReg 0 5))) (fun t => t.i == 0x19) = true := by decide
theorem test_ldF_wide : nextIs (step (start 0xF029 (State.reset.setReg 0 0xFF))) (fun t => t.i == 0x4FB) = true := by
  decide

-- T-M16, T-M17
theorem test_ldB_last_place : nextIs (step (start 0xF033 { State.reset.setReg 0 0xFF with i := 0xFFD }))
    (fun t => t.byteAt 0xFFD == 2 && t.byteAt 0xFFE == 5 && t.byteAt 0xFFF == 5 && t.i == 0xFFD) = true := by decide
theorem test_ldB_oob : haltsWith (step (start 0xF033 { State.reset.setReg 0 0xFF with i := 0xFFE })) .dataOob
    (fun t => t.byteAt 0xFFE == 0 && t.byteAt 0xFFF == 0 && t.pc == 0x200) = true := by decide

-- T-M18, then T-M22 and T-M21
theorem test_stRegs : nextIs (step (start 0xF255
    { ((v12 0x22 0x33).setReg 0 0x11).setReg 3 0x44 with i := 0x300 }))
    (fun t => t.byteAt 0x300 == 0x11 && t.byteAt 0x301 == 0x22 && t.byteAt 0x302 == 0x33 && t.byteAt 0x303 == 0 &&
      t.i == 0x300) = true := by decide
theorem test_stRegs_edges : nextIs (step (start 0xF055 (State.reset.setReg 0 0x99)))
    (fun t => t.byteAt 0 == 0x99 && t.mem.wf) = true ∧
    haltsWith (step (start 0xFF55 { State.reset.setReg 0 0x99 with i := 0xFF1 })) .dataOob
      (fun t => t.byteAt 0xFF1 == 0 && t.pc == 0x200) = true := by decide

-- T-M23, T-M27
theorem test_ldRegs : nextIs (step (start 0xF265 { State.reset.setReg 3 0xEE with
      i := 0x300, mem := Memory.writeList 0x300 [0x11, 0x22, 0x33, 0x44] [] }))
    (fun t => t.reg 0 == 0x11 && t.reg 1 == 0x22 && t.reg 2 == 0x33 && t.reg 3 == 0xEE && t.i == 0x300) = true := by
  decide
theorem test_ldRegs_oob : haltsWith (step (start 0xF065 { State.reset with i := 0x1000 })) .dataOob
    (fun t => t.reg 0 == 0) = true := by decide

/-- Memory with bytes at 0x300. -/
def at300 (bs : List Byte) (s : State) : State := { s with i := 0x300, mem := Memory.writeList 0x300 bs [] }

/-- The pixels of a state that are lit, among some. -/
def litAmong (t : State) (ps : List (Row × Col)) : List Bool := ps.map fun p => t.pixel p.1 p.2

-- T-D1
theorem test_cls : nextIs (step (start 0x00E0 { State.reset.setReg 15 1 with
      fb := Vector.replicate 32 (Vector.replicate 64 true) }))
    (fun t => decide (t.fb = Grid.blank) && t.changed && t.reg 15 == 1 && t.pc == 0x202) = true := by decide

-- T-D4, T-D6, T-D9
theorem test_drw : nextIs (step (start 0xD011 (at300 [0xFF]
      { State.reset with fb := Grid.blank.set 0 ((Vector.replicate 64 false).set 3 true) })))
    (fun t => litAmong t [(0, 2), (0, 3), (0, 4), (0, 7), (0, 8)] == [true, false, true, true, false] &&
      t.reg 15 == 1 && t.changed) = true ∧
    nextIs (step (start 0xD011 (at300 [0xC0] ((State.reset.setReg 0 0x3F).setReg 1 0))))
      (fun t => litAmong t [(0, 63), (0, 0), (0, 1), (0, 62), (1, 0)] == [true, true, false, false, false] &&
        t.reg 15 == 0) = true ∧
    nextIs (step (start 0xD012 (at300 [0x80, 0x80] ((State.reset.setReg 0 0).setReg 1 0x1F))))
      (fun t => litAmong t [(31, 0), (0, 0), (30, 0), (1, 0)] == [true, true, false, false]) = true := by decide

-- T-D14, T-D10, T-D12
theorem test_drw_corners : nextIs (step (start 0xDFF1 (at300 [0x80] (State.reset.setReg 15 2))))
    (fun t => litAmong t [(2, 2), (0, 0)] == [true, false] && t.reg 15 == 0) = true ∧
    nextIs (step (start 0xD010 { State.reset.setReg 15 1 with i := 0xFFFF }))
      (fun t => t.reg 15 == 0 && t.changed) = true ∧
    haltsWith (step (start 0xD012 { State.reset.setReg 15 1 with i := 0xFFF })) .dataOob
      (fun t => t.reg 15 == 1 && !t.changed && t.pc == 0x200) = true := by decide

-- T-K1, T-K3, T-K4, T-K6
theorem test_ldDtVx : nextIs (step (start 0xF115 (v12 0x3C 0))) (fun t => t.dt == 0x3C) = true := by decide
theorem test_ldStVx : nextIs (step (start 0xF118 (v12 5 0))) (fun t => t.st == 5) = true := by decide
theorem test_ldVxDt : nextIs (step (start 0xF107 { State.reset with dt := 5 }))
    (fun t => t.dt == 4 && t.reg 1 == 4) = true := by decide
theorem test_timer_floor : nextIs (step (start 0xF107)) (fun t => t.dt == 0 && t.reg 1 == 0) = true := by decide

-- T-K9, T-K10, T-K14
theorem test_skp : nextIs (step (given 0x0020 0 (start 0xE19E (v12 5 0)))) (fun t => t.pc == 0x204) = true ∧
    nextIs (step (given 0xFFDF 0 (start 0xE19E (v12 5 0)))) (fun t => t.pc == 0x202) = true := by decide
theorem test_skp_oob : haltsWith (step (given 0xFFFF 0 (start 0xE19E (v12 0x10 0)))) .keyOob
    (fun t => t.pc == 0x200) = true := by decide

-- T-K11, T-K12, T-K15
theorem test_sknp : nextIs (step (given 0x0020 0 (start 0xE1A1 (v12 5 0)))) (fun t => t.pc == 0x202) = true ∧
    nextIs (step (given 0x0000 0 (start 0xE1A1 (v12 5 0)))) (fun t => t.pc == 0x204) = true := by decide
theorem test_sknp_oob : haltsWith (step (start 0xE1A1 (v12 0xFF 0))) .keyOob (fun t => t.pc == 0x200) = true := by
  decide

/-- Waiting for a key to give to a register. -/
def waiting (r : Reg) (keys : Word) (s : State := State.reset) : State := given keys 0 (s.enterWait r)

-- T-K16, T-K17, T-K18, T-K21
theorem test_ldVxK : nextIs (step (given 0xFFFF 0 (start 0xF20A { State.reset with dt := 3 })))
    (fun t => t.dt == 2 && t.wait && t.wreg == 2 && t.pc == 0x202 && t.reg 2 == 0) = true := by decide
theorem test_wait_no_key : nextIs (step (waiting 2 0 { State.reset with pc := 0xFFF, dt := 2 }))
    (fun t => t.dt == 2 && t.wait && t.pc == 0xFFF && t.reg 2 == 0 && !t.changed) = true := by decide
theorem test_wait_lowest_key : nextIs (step (waiting 2 0x0900 { State.reset with dt := 2 }))
    (fun t => t.reg 2 == 8 && !t.wait && t.dt == 2 && t.pc == 0x200) = true := by decide

-- T-E1, T-E3, T-E6
theorem test_halted : haltsWith (step (waiting 2 0x0900 { State.reset with fault := some .dataOob, dt := 2 })) .dataOob
    (fun t => t.dt == 2 && t.reg 2 == 0 && t.pc == 0x200) = true := by decide
theorem test_fetch_oob : haltsWith (step { State.reset with pc := 0xFFF, dt := 5, st := 1 }) .fetchOob
    (fun t => t.pc == 0xFFF && t.dt == 4 && t.st == 0) = true := by decide
-- T-E2
theorem test_fetch_last_place : nextIs (step (start 0x6001 { State.reset with pc := 0xFFE }))
    (fun t => t.reg 0 == 1 && t.pc == 0x1000) = true := by decide

-- P1 (image 6A 3C 7A 01 00 E0), its bytes placed and its first Step
theorem test_load : nextIs (load [0x6A, 0x3C, 0x7A, 0x01, 0x00, 0xE0] State.reset)
    (fun t => t.byteAt 0x200 == 0x6A && t.byteAt 0x205 == 0xE0 && t.byteAt 0x206 == 0 && t.mem.wf &&
      nextIs (step t) (fun u => u.reg 10 == 0x3C && u.pc == 0x202)) = true := by decide
theorem test_load_twice : load [] { State.reset with lifecycle := .loaded } = .refused .loadOutOfOrder := rfl

-- R171
theorem test_fault_codes : [none, some .unimplOpcode, some .fetchOob, some .dataOob, some .stackOverflow,
    some .stackUnderflow, some .keyOob, some .romTooLarge].map faultCode = [0, 1, 2, 3, 4, 5, 6, 7] := by decide

-- T-E8: an image of 3585 bytes, whatever they are
theorem test_load_too_large (rom : List Byte) (h : rom.length = 3585) : load rom State.reset =
    .fault (.romTooLarge { State.reset with fault := some .romTooLarge, lifecycle := .loaded }) :=
  if_neg (by rw [h]; decide)

/-- A host's probe runs the placed word as the next Step. -/
theorem test_probe : decodeTableWord 16 0xD125 = some (.drw 1 2 5) ∧
    nextIs (step (State.reset.withFetchWord 16 0x1204)) (fun t => t.pc == 0x204) = true := by decide

/-! ### Witnesses: every obligation with hypotheses has a state and operands that meet them -/

theorem witness_WordsDecodeExactlyWhenTheyMatchARow :
    legalOpcode 0x00EE = true ∧ legalOpcode 0xFF65 = true ∧ legalOpcode 0x00EF = false := by decide

/-- `PC` at the last place a fetch can read and one above it, with a legal and an illegal opcode. -/
theorem witness_StepRunsTheDecodedInstruction :
    (State.reset.setPc 0xFFF).Running ∧ (State.reset.setPc 0xFFF).pc.toNat + 1 > 0xFFF ∧
    (start 0x6001 (State.reset.setPc 0xFFE)).Running ∧ (start 0x6001 (State.reset.setPc 0xFFE)).pc.toNat + 1 ≤ 0xFFF ∧
    decodeWord (opcodeAt (start 0x6001 (State.reset.setPc 0xFFE))) = some (.ldImm 0 1) ∧
    State.reset.Running ∧ State.reset.pc.toNat + 1 ≤ 0xFFF ∧ decodeWord (opcodeAt State.reset) = none :=
  ⟨⟨rfl, rfl⟩, by decide, ⟨rfl, rfl⟩, by decide, by decide, ⟨rfl, rfl⟩, by decide, by decide⟩

/-- An instruction that writes no timer, the two that write one, and a Step that faults at its fetch, its decode and
its instruction. -/
theorem witness_TimersTickInEveryRunningStep :
    ((start 0x6000).Running ∧ decodeWord (opcodeAt (start 0x6000)) = some (.ldImm 0 0) ∧
      ∃ t, step (start 0x6000) = .next t) ∧
    ((start 0xF115).Running ∧ decodeWord (opcodeAt (start 0xF115)) = some (.ldDtVx 1) ∧
      ∃ t, step (start 0xF115) = .next t) ∧
    ((start 0xF118).Running ∧ decodeWord (opcodeAt (start 0xF118)) = some (.ldStVx 1) ∧
      ∃ t, step (start 0xF118) = .next t) ∧
    ((State.reset.setPc 0xFFF).Running ∧ ∃ f, step (State.reset.setPc 0xFFF) = .fault f) ∧
    (State.reset.Running ∧ ∃ f, step State.reset = .fault f) ∧
    ((start 0x00EE).Running ∧ ∃ f, step (start 0x00EE) = .fault f) :=
  ⟨⟨⟨rfl, rfl⟩, by decide, _, rfl⟩, ⟨⟨rfl, rfl⟩, by decide, _, rfl⟩, ⟨⟨rfl, rfl⟩, by decide, _, rfl⟩,
    ⟨⟨rfl, rfl⟩, _, rfl⟩, ⟨⟨rfl, rfl⟩, _, rfl⟩, ⟨rfl, rfl⟩, _, rfl⟩

/-- Keys 8 and 11 held, and the lowest and the highest key. -/
theorem witness_KeyWaitTakesTheLowestHeldKey :
    ((waiting 2 0x0900).AwaitingKey ∧ (waiting 2 0x0900).keys.getLsbD (8 : Key).val = true ∧
      ∀ j < (8 : Key), (waiting 2 0x0900).keys.getLsbD j.val = false) ∧
    ((waiting 2 0x0001).AwaitingKey ∧ (waiting 2 0x0001).keys.getLsbD (0 : Key).val = true ∧
      ∀ j < (0 : Key), (waiting 2 0x0001).keys.getLsbD j.val = false) ∧
    ((waiting 15 0x8000).AwaitingKey ∧ (waiting 15 0x8000).keys.getLsbD (15 : Key).val = true ∧
      ∀ j < (15 : Key), (waiting 15 0x8000).keys.getLsbD j.val = false) :=
  ⟨⟨⟨rfl, rfl⟩, by decide⟩, ⟨⟨rfl, rfl⟩, by decide⟩, ⟨rfl, rfl⟩, by decide⟩

theorem witness_KeyWaitWithoutAKeyChangesNothing :
    (waiting 2 0).AwaitingKey ∧ ∀ k : Key, (waiting 2 0).keys.getLsbD k.val = false :=
  ⟨⟨rfl, rfl⟩, by decide⟩

theorem witness_HaltedStepChangesNothing : (State.reset.latch .keyOob).fault = some .keyOob := rfl

theorem witness_RunningFaultsArePrecise : State.reset.Running ∧ ∃ f, step State.reset = .fault f :=
  ⟨⟨rfl, rfl⟩, _, rfl⟩

/-- A call on a stack with room, and on a full one. -/
theorem witness_InstructionsFaultExactlyAsListed :
    faultOf (.call 0) { State.reset with sp := 15 } = none ∧
    faultOf (.call 0) { State.reset with sp := 16 } = some .stackOverflow := by decide

/-- The last font byte and the first byte after the font. -/
theorem witness_ResetHoldsTheStatedValues : 79 < 80 ∧ 80 ≤ 80 := by decide

/-- At the last place that can be fetched, where a skip leaves memory. -/
theorem witness_EveryStepKeepsTheInvariant :
    Inv (start 0x3000 (State.reset.setPc 0xFFE)) ∧ ∃ t, step (start 0x3000 (State.reset.setPc 0xFFE)) = .next t :=
  ⟨⟨by decide, by decide, by decide, rfl⟩, _, rfl⟩

theorem witness_RegistersChangeOnlyAsListed :
    (∃ t, exec (.ldRegs 2) State.reset = .next t) ∧ ¬ Writes (.ldRegs 2) 3 ∧
    (∃ t, exec (.addReg 1 2) State.reset = .next t) ∧ ¬ Writes (.addReg 1 2) 2 :=
  ⟨⟨_, rfl⟩, by unfold Writes; decide, ⟨_, rfl⟩, by unfold Writes; decide⟩

theorem witness_FlagsAreZeroOrOne :
    (1 : Reg) ≠ 15 ∧ (∃ t, exec (.addReg 1 15) State.reset = .next t) ∧
    (∃ t, exec (.sub 1 15) State.reset = .next t) ∧ (∃ t, exec (.shr 1 15) State.reset = .next t) ∧
    (∃ t, exec (.subn 1 15) State.reset = .next t) ∧ (∃ t, exec (.shl 1 15) State.reset = .next t) ∧
    (∃ t, exec (.drw 15 15 0) State.reset = .next t) ∧ ∃ t, exec (.addI 15) State.reset = .next t :=
  ⟨by decide, ⟨_, rfl⟩, ⟨_, rfl⟩, ⟨_, rfl⟩, ⟨_, rfl⟩, ⟨_, rfl⟩, ⟨_, rfl⟩, _, rfl⟩

theorem witness_OnlyIndexInstructionsWriteI :
    (∃ t, exec (.stRegs 3) State.reset = .next t) ∧ (∀ a, Instr.stRegs 3 ≠ .ldI a) ∧
    (∀ x, Instr.stRegs 3 ≠ .addI x) ∧ ∀ x, Instr.stRegs 3 ≠ .ldF x :=
  ⟨⟨_, rfl⟩, by simp, by simp, by simp⟩

/-- The bytes on either side of the stored ones. -/
theorem witness_OnlyStoredBytesChange :
    (∃ t, exec (.stRegs 2) (at300 [] State.reset) = .next t) ∧ ¬ Stores (.stRegs 2) (at300 [] State.reset) 0x2FF ∧
    ¬ Stores (.stRegs 2) (at300 [] State.reset) 0x303 ∧
    (∃ t, exec (.ldB 2) (at300 [] State.reset) = .next t) ∧ ¬ Stores (.ldB 2) (at300 [] State.reset) 0x303 ∧
    (∃ t, exec (.ldRegs 2) State.reset = .next t) ∧ ¬ Stores (.ldRegs 2) State.reset 0 :=
  ⟨⟨_, rfl⟩, by unfold Stores; decide, by unfold Stores; decide, ⟨_, rfl⟩, by unfold Stores; decide, ⟨_, rfl⟩,
    by unfold Stores; decide⟩

theorem witness_OnlyDisplayInstructionsTouchTheScreen :
    (∃ t, exec .cls State.reset = .next t) ∧ (∃ t, exec (.drw 0 0 1) State.reset = .next t) ∧
    (∃ t, exec (.ldImm 0 1) State.reset = .next t) ∧
    ¬ (Instr.ldImm 0 1 = .cls ∨ ∃ x y n, Instr.ldImm 0 1 = .drw x y n) :=
  ⟨⟨_, rfl⟩, ⟨_, rfl⟩, ⟨_, rfl⟩, by simp⟩

theorem witness_OnlyCallAndReturnTouchTheStack :
    (∃ t, exec (.jp 0) State.reset = .next t) ∧ (∀ a, Instr.jp 0 ≠ .call a) ∧ Instr.jp 0 ≠ .ret :=
  ⟨⟨_, rfl⟩, by simp, by decide⟩

theorem witness_OnlyWaitForKeyEntersTheWait :
    (∃ t, exec (.ldVxDt 0) State.reset = .next t) ∧ ∀ x, Instr.ldVxDt 0 ≠ .ldVxK x :=
  ⟨⟨_, rfl⟩, by simp⟩

theorem witness_ProgramCounterMovesAsListed :
    (∃ t, exec (.seImm 0 0) State.reset = .next t) ∧ (∃ f, exec .ret State.reset = .fault f) ∧
    (∃ f, step State.reset = .fault f) ∧ (∃ f, step (State.reset.latch .dataOob) = .fault f) ∧
    (waiting 2 0).AwaitingKey ∧ ∃ t, step (waiting 2 0) = .next t :=
  ⟨⟨_, rfl⟩, ⟨_, rfl⟩, ⟨_, rfl⟩, ⟨_, rfl⟩, ⟨rfl, rfl⟩, _, rfl⟩

theorem witness_InputsReachOnlyTheirInstructions :
    (∀ x kk, Instr.skp 0 ≠ .rnd x kk) ∧ (⟨0x0900, 1⟩ : StepInput).keys = (⟨0x0900, 2⟩ : StepInput).keys ∧
    (∀ x, Instr.rnd 0 1 ≠ .skp x) ∧ (∀ x, Instr.rnd 0 1 ≠ .sknp x) ∧
    (⟨1, 7⟩ : StepInput).rnd = (⟨2, 7⟩ : StepInput).rnd :=
  ⟨by simp, rfl, by simp, by simp, rfl⟩

/-- The glyph 0 drawn twice in the corner of the blank screen. -/
theorem witness_DrawingTwiceRestoresTheScreen :
    (0 : Reg) ≠ 15 ∧ (1 : Reg) ≠ 15 ∧
    ∃ t, exec (.drw 0 1 5) State.reset = .next t ∧ ∃ u, exec (.drw 0 1 5) t = .next u :=
  ⟨by decide, by decide, _, rfl, _, rfl⟩

theorem witness_ReturnPopsTheStack :
    ({ State.reset with sp := 1 } : State).sp.val > 0 ∧ (0 : Fin 16).val + 1 = ({ State.reset with sp := 1 } : State).sp.val ∧
    ({ State.reset with sp := 16 } : State).sp.val > 0 ∧
    (15 : Fin 16).val + 1 = ({ State.reset with sp := 16 } : State).sp.val ∧ State.reset.sp.val = 0 := by decide

theorem witness_CallPushesTheReturnAddress :
    State.reset.sp.val < 16 ∧ (0 : Fin 16).val = State.reset.sp.val ∧
    ({ State.reset with sp := 15 } : State).sp.val < 16 ∧
    (15 : Fin 16).val = ({ State.reset with sp := 15 } : State).sp.val ∧
    ({ State.reset with sp := 16 } : State).sp.val = 16 := by decide

theorem witness_SkipsOnTwoRegisters : (1 : Nibble) ≠ 0 ∧ (15 : Nibble) ≠ 0 := by decide

theorem witness_RandomByteUnderTheMask : (given 0 0xA7 State.reset).inputs = ⟨0, 0xA7⟩ :: [] := rfl

theorem witness_BcdStoresThreeDigits :
    State.reset.i.toNat + 2 ≤ 0xFFF ∧ (State.reset.setIndex 0xFFD).i.toNat + 2 ≤ 0xFFF := by decide

theorem witness_RegistersAreStoredFromI :
    (State.reset.setIndex 0xFF0).i.toNat + (15 : Reg).val ≤ 0xFFF ∧
    (State.reset.setIndex 0xFFF).i.toNat + (0 : Reg).val ≤ 0xFFF := by decide

theorem witness_RegistersAreLoadedFromI :
    (State.reset.setIndex 0xFF0).i.toNat + (15 : Reg).val ≤ 0xFFF ∧ (7 : Reg) ≤ 15 ∧
    (State.reset.setIndex 0xFFF).i.toNat + (0 : Reg).val ≤ 0xFFF ∧ ¬ (1 : Reg) ≤ 0 := by decide

/-- `n = 0` with `I` outside memory; one row at the last byte; a pixel the sprite covers and one it does not, with
and without a lit pixel under it. -/
theorem witness_DrawXorsTheSprite :
    (0 : Fin 16).val = 0 ∧ (State.reset.setIndex 0xFFF).i.toNat + (1 : Fin 16).val - 1 ≤ 0xFFF ∧
    SpriteCovers State.reset 0 0 1 0 3 ∧ ¬ SpriteCovers State.reset 0 0 1 0 4 ∧
    (∃ r c, SpriteCovers { State.reset with fb := Vector.replicate 32 (Vector.replicate 64 true) } 0 0 1 r c ∧
      State.pixel { State.reset with fb := Vector.replicate 32 (Vector.replicate 64 true) } r c = true) ∧
    ¬ ∃ r c, SpriteCovers State.reset 0 0 1 r c ∧ State.reset.pixel r c = true := by
  refine ⟨rfl, by decide, ⟨0, by decide, 3, by decide, by decide, by decide, by decide⟩, ?_,
    ⟨0, 3, ⟨0, by decide, 3, by decide, by decide, by decide, by decide⟩, by decide⟩, ?_⟩
  · rintro ⟨row, hr, bit, hb, hy, hx, hs⟩
    obtain rfl : row = 0 := by omega
    obtain rfl : bit = 4 := by
      have : bit % 64 = 4 := by simpa using hx
      omega
    revert hs; decide
  · rintro ⟨r, c, -, h⟩
    simp [State.pixel, Grid.pixel, State.reset] at h

theorem witness_PixelPortReadsTheScreen : (64 ≤ 64 ∨ 32 ≤ 0) ∧ (64 ≤ 0 ∨ 32 ≤ 32) ∧ 2048 ≤ 2048 := by decide

/-- The last place at which each access fits, and the next one, at which it faults; `n = 0` never faults. -/
theorem witness_DataAccessAboveMemoryFaults :
    haltsWith (exec (.drw 0 0 2) (State.reset.setIndex 0xFFF)) .dataOob (fun _ => true) = true ∧
    nextIs (exec (.drw 0 0 1) (State.reset.setIndex 0xFFF)) (fun _ => true) = true ∧
    nextIs (exec (.drw 0 0 0) (State.reset.setIndex 0xFFFF)) (fun _ => true) = true ∧
    haltsWith (exec (.ldB 0) (State.reset.setIndex 0xFFE)) .dataOob (fun _ => true) = true ∧
    nextIs (exec (.ldB 0) (State.reset.setIndex 0xFFD)) (fun _ => true) = true ∧
    haltsWith (exec (.stRegs 15) (State.reset.setIndex 0xFF1)) .dataOob (fun _ => true) = true ∧
    nextIs (exec (.stRegs 15) (State.reset.setIndex 0xFF0)) (fun _ => true) = true ∧
    haltsWith (exec (.ldRegs 15) (State.reset.setIndex 0xFF1)) .dataOob (fun _ => true) = true ∧
    nextIs (exec (.ldRegs 15) (State.reset.setIndex 0xFF0)) (fun _ => true) = true := by decide

/-- The last register value that names a key, and the first that does not. -/
theorem witness_SkipsOnAKey :
    ((State.reset.setReg 1 15).reg 1).toNat ≤ 15 ∧ ((State.reset.setReg 1 16).reg 1).toNat > 15 := by decide

theorem witness_TimerRegistersAreReadAndWritten :
    ((start 0xF107 (State.reset.setPc 0xFFE)).Running ∧ (start 0xF107 (State.reset.setPc 0xFFE)).pc.toNat + 1 ≤ 0xFFF ∧
      decodeWord (opcodeAt (start 0xF107 (State.reset.setPc 0xFFE))) = some (.ldVxDt 1)) ∧
    ((start 0xF115).Running ∧ (start 0xF115).pc.toNat + 1 ≤ 0xFFF ∧
      decodeWord (opcodeAt (start 0xF115)) = some (.ldDtVx 1)) ∧
    (start 0xF118).Running ∧ (start 0xF118).pc.toNat + 1 ≤ 0xFFF ∧
      decodeWord (opcodeAt (start 0xF118)) = some (.ldStVx 1) :=
  ⟨⟨⟨rfl, rfl⟩, by decide, by decide⟩, ⟨⟨rfl, rfl⟩, by decide, by decide⟩, ⟨rfl, rfl⟩, by decide, by decide⟩

theorem witness_WaitForKeyRecordsItsRegister :
    ((waiting 2 0).AwaitingKey ∧ (waiting 2 0).wreg = 2 ∧ ∀ k : Key, (waiting 2 0).keys.getLsbD k.val = false) ∧
    ((waiting 15 0x0900).AwaitingKey ∧ (waiting 15 0x0900).wreg = 15 ∧
      (waiting 15 0x0900).keys.getLsbD (8 : Key).val = true ∧
      ∀ j < (8 : Key), (waiting 15 0x0900).keys.getLsbD j.val = false) :=
  ⟨⟨⟨rfl, rfl⟩, rfl, by decide⟩, ⟨rfl, rfl⟩, rfl, by decide⟩

/-- The empty program, one of one byte with the places at its edges, the longest one, and one byte more. -/
theorem witness_LoadPlacesTheProgram :
    ([0x6A] : List Byte).length ≤ 3584 ∧ 0 < ([0x6A] : List Byte).length ∧ 0x1FF < 0x200 ∧
    0x200 + ([0x6A] : List Byte).length ≤ 0x201 ∧
    State.reset.lifecycle = .created ∧ ([] : List Byte).length ≤ 3584 ∧ (List.replicate 3584 (0 : Byte)).length ≤ 3584 ∧
    (List.replicate 3585 (0 : Byte)).length > 3584 :=
  ⟨by decide, by decide, by decide, by decide, rfl, Nat.zero_le _, Nat.le_of_eq List.length_replicate, by rw [List.length_replicate]; decide⟩

theorem witness_LoadIsRefusedOutOfOrder :
    (∃ t, load [0x12, 0x00] State.reset = .next t) ∧ (∃ f, load (List.replicate 3585 0) State.reset = .fault f) ∧
    (∃ t, step (start 0x1200) = .next t) ∧ ∃ f, step State.reset = .fault f :=
  ⟨⟨_, rfl⟩, ⟨_, test_load_too_large _ List.length_replicate⟩, ⟨_, rfl⟩, _, rfl⟩

end Sys2Proof.Tests
end

section
/-! SUPPORT. The Step and the key wait (spec/40_step_cycle.md R84, R86, R87, spec/46_timer_key.md R165): what a
Running and a waiting Step answer, one lemma per case, and the frame of an instruction's end. -/

namespace Sys2Proof.Machine

open Sys2Proof

/-! ### The end of a Step as a frame -/

/-- A state keeps all its own parts, whatever an instruction may write. -/
theorem KeptBut.refl (written : List Part) (s : State) : KeptBut written s s := by
  intro p _
  cases p <;> simp [Part.Same]

/-- The end of a Step touches no part of the spec's state. -/
@[simp] theorem keptBut_endStep (written : List Part) (ch : Bool) (s t : State) :
    KeptBut written s (t.endStep ch) ↔ KeptBut written s t :=
  forall₂_congr fun p _ => by cases p <;> rfl

/-- `PC` is none of the listed parts, so moving it keeps every frame. -/
@[simp] theorem keptBut_setPc (written : List Part) (a : Word) (s t : State) :
    KeptBut written s (t.setPc a) ↔ KeptBut written s t :=
  forall₂_congr fun p _ => by cases p <;> rfl

/-- Ending a Step gives the model's own fields their values, however `PC` was moved before. -/
theorem stepEnds_setPc_endStep (ch : Bool) (a : Word) (s t : State)
    (hin : t.inputs = s.inputs) (hcount : t.stepCount = s.stepCount) :
    StepEnds ch s ((t.setPc a).endStep ch) :=
  ⟨rfl, rfl, congrArg List.tail hin, congrArg (· + 1) hcount⟩

/-- Entering the wait writes `WAIT` and `WREG` alone. -/
theorem keptBut_enterWait (x : Reg) (s : State) : KeptBut [.keyWait] s (s.enterWait x) := by
  intro p hp
  cases p <;> simp_all [Part.Same]

/-! ### The Running Step -/

/-- A fetch above 0xFFF (R86). -/
theorem step_fetchOob (s : State) (h : s.Running) (hp : s.pc.toNat + 1 > 0xFFF) :
    step s = raise .fetchOob s.tickTimers := by
  rw [step_running s h, if_pos hp]

/-- An opcode that matches a row (R87). -/
theorem step_executes (s : State) (i : Instr) (h : s.Running) (hp : s.pc.toNat + 1 ≤ 0xFFF)
    (hi : decodeWord (opcodeAt s) = some i) : step s = exec i s.tickTimers := by
  rw [step_running s h, if_neg (Nat.not_lt.2 hp), hi]

/-- An opcode that matches no row (R87). -/
theorem step_unimplOpcode (s : State) (h : s.Running) (hp : s.pc.toNat + 1 ≤ 0xFFF)
    (hi : decodeWord (opcodeAt s) = none) : step s = raise .unimplOpcode s.tickTimers := by
  rw [step_running s h, if_neg (Nat.not_lt.2 hp), hi]

/-- Settles O5: one lemma for each way a Running Step can go. -/
theorem stepRunsTheDecodedInstruction : Obligations.StepRunsTheDecodedInstruction := by
  intro s hs
  refine ⟨fun hp => ⟨_, step_fetchOob s hs hp⟩, fun hp => ⟨fun i hi => ?_, fun hi => ?_⟩⟩
  · exact step_executes s i hs hp hi
  · exact ⟨_, step_unimplOpcode s hs hp hi⟩

/-! ### The key wait -/

/-- The words whose first nibble is F are told apart by `kk` (R66). -/
theorem decodeWord_encodeXK_F (x : Reg) (kk : Byte) : decodeWord (encodeXK 0xF x kk) = decodeF x kk := by
  simp [decodeWord]

/-- `Fx0A` completes with the wait entered and `PC` moved on (R165). -/
theorem exec_ldVxK (x : Reg) (s : State) :
    exec (.ldVxK x) s = .next (((s.enterWait x).setPc (s.pc + 2)).endStep false) := rfl

/-- A waiting Step with no key held only ends (R84). -/
theorem step_awaitingKey_idle (s : State) (h : s.AwaitingKey) (hnone : ∀ k : Key, s.keys.getLsbD k.val = false) :
    step s = .next (s.endStep false) := by
  rw [step_awaitingKey s h, (lowestHeld_eq_none s.keys).2 hnone]

/-- A waiting Step that finds `k` the lowest key held resolves the wait (R84). -/
theorem step_awaitingKey_resolves (s : State) (k : Key) (h : s.AwaitingKey) (hk : s.keys.getLsbD k.val = true)
    (hlow : ∀ j < k, s.keys.getLsbD j.val = false) :
    step s = .next ((s.setReg s.wreg (keyByte k)).leaveWait.endStep false) := by
  rw [step_awaitingKey s h, (lowestHeld_eq_some s.keys k).2 ⟨hk, hlow⟩]

/-- Settles O50: the entry by `exec_ldVxK`, the waiting and the resolving Step by the two lemmas above. -/
theorem waitForKeyRecordsItsRegister : Obligations.WaitForKeyRecordsItsRegister := by
  intro x s
  refine ⟨decodeWord_encodeXK_F x 0x0A, ⟨_, exec_ldVxK x s, ?_⟩, fun hs hx => ⟨fun hnone => ?_, fun k hk hlow => ?_⟩⟩
  · exact ⟨rfl, rfl, rfl, by simpa using keptBut_enterWait x s, stepEnds_setPc_endStep false _ s _ rfl rfl⟩
  · exact ⟨_, step_awaitingKey_idle s hs hnone, hs, hx, rfl, by simpa using KeptBut.refl [] s, rfl, rfl, rfl, rfl⟩
  · refine ⟨_, step_awaitingKey_resolves s k hs hk hlow, ?_, rfl, rfl, rfl, rfl⟩
    simp [hx, keyByte]

end Sys2Proof.Machine
end

section
/-! SUPPORT. Control transfer (spec/41_flow.md R101, R103): an instruction that moves `PC` and writes nothing
else, and the unreduced target of `Bnnn`. -/

namespace Sys2Proof.Machine

open Sys2Proof

/-- Completing with no other effect moves `PC` as the action says, and every part keeps its value (R88). -/
theorem complete_onlyMovesPc (act : PcAction) (s : State) :
    ∃ t, complete act false s = .next t ∧ OnlyMovesPc (act.target s.pc) s t := by
  have hframe : KeptBut [] s ((s.setPc (act.target s.pc)).endStep false) := by simpa using KeptBut.refl [] s
  exact ⟨_, rfl, rfl, hframe, stepEnds_setPc_endStep false _ s s rfl rfl⟩

/-- `1nnn` only jumps (R101). -/
theorem exec_jp (addr : Addr) (s : State) : exec (.jp addr) s = complete (.jump (addrWord addr)) false s := rfl

/-- `Bnnn` only jumps (R103). -/
theorem exec_jpV0 (addr : Addr) (s : State) :
    exec (.jpV0 addr) s = complete (.jump (offsetTarget s addr)) false s := rfl

/-- The sum of `Bnnn` is at most 0x10FE, so it fits the 16 bits of `PC` and nothing is cut off (R103). -/
theorem toNat_offsetTarget (s : State) (addr : Addr) :
    (offsetTarget s addr).toNat = (s.reg 0).toNat + addr.toNat := by
  have hv := (s.reg 0).isLt
  have ha := addr.isLt
  simp only [offsetTarget, addrWord, BitVec.toNat_add, BitVec.toNat_setWidth]
  omega

/-- Settles O26: `1nnn` is a jump to the zero-extended address. -/
theorem jumpGoesToTheAddress : Obligations.JumpGoesToTheAddress := by
  intro addr s
  have hdecode : decodeWord (encodeA 0x1 addr) = some (.jp addr) := by simp [decodeWord]
  exact ⟨hdecode, exec_jp addr s ▸ complete_onlyMovesPc (.jump (addrWord addr)) s⟩

/-- Settles O28: `Bnnn` is a jump to `offsetTarget`, whose value `toNat_offsetTarget` gives. -/
theorem jumpWithOffsetAddsV0 : Obligations.JumpWithOffsetAddsV0 := by
  intro addr s
  have hdecode : decodeWord (encodeA 0xB addr) = some (.jpV0 addr) := by simp [decodeWord]
  obtain ⟨t, hcomplete, hpc, hkept, hends⟩ := complete_onlyMovesPc (.jump (offsetTarget s addr)) s
  refine ⟨hdecode, t, (exec_jpV0 addr s).trans hcomplete, ?_, rfl, hkept, hends⟩
  rw [hpc, PcAction.target_jump, toNat_offsetTarget]

end Sys2Proof.Machine
end

section
/-! SUPPORT. Conditional skips on register values (spec/42_skip.md R110, R111): an instruction that only chooses
whether `PC` passes the next two bytes. -/

namespace Sys2Proof.Machine

open Sys2Proof

/-- A skip decided by `b` moves `PC` by 4 or by 2, and every part keeps its value (R88). -/
theorem complete_skipIf_onlyMovesPc (b : Bool) (s : State) :
    ∃ t, complete (skipIf b) false s = .next t ∧ OnlyMovesPc (if b then s.pc + 4 else s.pc + 2) s t :=
  PcAction.target_skipIf b s.pc ▸ complete_onlyMovesPc (skipIf b) s

/-- `3xkk` only skips on equality (R110). -/
theorem exec_seImm (x : Reg) (kk : Byte) (s : State) :
    exec (.seImm x kk) s = complete (skipIf (s.reg x == kk)) false s := rfl

/-- `4xkk` only skips on inequality (R111). -/
theorem exec_sneImm (x : Reg) (kk : Byte) (s : State) :
    exec (.sneImm x kk) s = complete (skipIf (s.reg x != kk)) false s := rfl

/-- Settles O29: both instructions are a `skipIf`, on the comparison and on its negation. -/
theorem skipsOnAnImmediate : Obligations.SkipsOnAnImmediate := by
  intro x kk s
  have hse : decodeWord (encodeXK 0x3 x kk) = some (.seImm x kk) := by simp [decodeWord]
  have hsne : decodeWord (encodeXK 0x4 x kk) = some (.sneImm x kk) := by simp [decodeWord]
  refine ⟨hse, hsne, ?_, ?_⟩
  · simpa [exec_seImm] using complete_skipIf_onlyMovesPc (s.reg x == kk) s
  · simpa [exec_sneImm] using complete_skipIf_onlyMovesPc (s.reg x != kk) s

end Sys2Proof.Machine
end

section
/-! SUPPORT. Register load, arithmetic, logic and random without a flag (spec/43_alu.md R120 to R125, R131): the
instructions that are a `writeResult`, which writes one register and keeps every other part. -/

namespace Sys2Proof.Machine

open Sys2Proof

/-! ### Writing one register -/

/-- A register write touches no part but the registers (R10). -/
theorem keptBut_setReg (r : Reg) (b : Byte) (s : State) : KeptBut [.regs] s (s.setReg r b) := by
  intro p hp
  cases p <;> simp_all [Part.Same]

/-- The shared end of the flagless instructions: one register written, all else kept (R120 to R125, R131). -/
theorem writeResult_setsRegister (x : Reg) (result : Byte) (s : State) :
    ∃ t, writeResult x result s = .next t ∧ SetsRegister x result s t := by
  refine ⟨_, rfl, ?_, fun r hr => ?_, rfl, ?_, stepEnds_setPc_endStep false _ s _ rfl rfl⟩
  · simp
  · simp [hr]
  · simpa using keptBut_setReg x result s

/-- The words whose first nibble is 8 are told apart by `d` (R66). -/
theorem decodeWord_encodeXYN_8 (x y : Reg) (n : Fin 16) :
    decodeWord (encodeXYN 0x8 x y n) = decodeEight x y (nibbleOf n) := by
  simp [decodeWord]

/-! ### Loads (R120, R122) -/

theorem exec_ldImm (x : Reg) (kk : Byte) (s : State) : exec (.ldImm x kk) s = writeResult x kk s := rfl

theorem exec_ldReg (x y : Reg) (s : State) : exec (.ldReg x y) s = writeResult x (s.reg y) s := rfl

/-- Settles O31: both loads are a `writeResult`, of the immediate and of the other register. -/
theorem loadsWriteOneRegister : Obligations.LoadsWriteOneRegister := by
  intro x y kk s
  have himm : decodeWord (encodeXK 0x6 x kk) = some (.ldImm x kk) := by simp [decodeWord]
  refine ⟨himm, decodeWord_encodeXYN_8 x y 0x0, ?_, ?_⟩
  · exact exec_ldImm x kk s ▸ writeResult_setsRegister x kk s
  · exact exec_ldReg x y s ▸ writeResult_setsRegister x (s.reg y) s

/-! ### The sum without a flag (R121) -/

theorem exec_addImm (x : Reg) (kk : Byte) (s : State) :
    exec (.addImm x kk) s = writeResult x (sumByte (s.reg x) kk) s := rfl

/-- The byte of a sum is the true sum mod 256 (R121, R126). -/
theorem toNat_sumByte (vx vy : Byte) : (sumByte vx vy).toNat = (vx.toNat + vy.toNat) % 256 :=
  BitVec.toNat_ofNat (vx.toNat + vy.toNat) 8

/-- Settles O32: `7xkk` is a `writeResult` of `sumByte`, whose value `toNat_sumByte` gives. -/
theorem addImmediateWrapsWithoutAFlag : Obligations.AddImmediateWrapsWithoutAFlag := by
  intro x kk s
  have hdecode : decodeWord (encodeXK 0x7 x kk) = some (.addImm x kk) := by simp [decodeWord]
  obtain ⟨t, hwrite, hsets⟩ := writeResult_setsRegister x (sumByte (s.reg x) kk) s
  have hx : t.reg x = sumByte (s.reg x) kk := hsets.1
  refine ⟨hdecode, t, (exec_addImm x kk s).trans hwrite, ?_, hx ▸ hsets⟩
  rw [hx, toNat_sumByte]

/-! ### Logic (R123 to R125) -/

theorem exec_orReg (x y : Reg) (s : State) : exec (.orReg x y) s = writeResult x (s.reg x ||| s.reg y) s := rfl

theorem exec_andReg (x y : Reg) (s : State) : exec (.andReg x y) s = writeResult x (s.reg x &&& s.reg y) s := rfl

theorem exec_xorReg (x y : Reg) (s : State) : exec (.xorReg x y) s = writeResult x (s.reg x ^^^ s.reg y) s := rfl

/-- Settles O33: the three words differ in `d`, and each instruction is a `writeResult` of its bitwise result. -/
theorem logicLeavesTheFlagAlone : Obligations.LogicLeavesTheFlagAlone := by
  intro x y s
  refine ⟨decodeWord_encodeXYN_8 x y 0x1, decodeWord_encodeXYN_8 x y 0x2, decodeWord_encodeXYN_8 x y 0x3, ?_, ?_, ?_⟩
  · exact exec_orReg x y s ▸ writeResult_setsRegister x (s.reg x ||| s.reg y) s
  · exact exec_andReg x y s ▸ writeResult_setsRegister x (s.reg x &&& s.reg y) s
  · exact exec_xorReg x y s ▸ writeResult_setsRegister x (s.reg x ^^^ s.reg y) s

/-! ### Random (R131) -/

theorem exec_rnd (x : Reg) (kk : Byte) (s : State) : exec (.rnd x kk) s = writeResult x (s.rnd &&& kk) s := rfl

/-- The random byte of a Step is the one its own listed input gives (R81, decision D7). -/
theorem State.rnd_of_inputs_cons (s : State) (a : StepInput) (rest : List StepInput) (h : s.inputs = a :: rest) :
    s.rnd = a.rnd := by
  simp only [State.rnd, h]

/-- Settles O37: `Cxkk` is a `writeResult` of the masked byte, which is the Step's own input. -/
theorem randomByteUnderTheMask : Obligations.RandomByteUnderTheMask := by
  intro x kk s
  have hdecode : decodeWord (encodeXK 0xC x kk) = some (.rnd x kk) := by simp [decodeWord]
  exact ⟨hdecode, exec_rnd x kk s ▸ writeResult_setsRegister x (s.rnd &&& kk) s, s.rnd_of_inputs_cons⟩

end Sys2Proof.Machine
end

section
/-! SUPPORT. Index register (spec/44_index_memory.md R140): an instruction that writes `I` and keeps every other
part. -/

namespace Sys2Proof.Machine

open Sys2Proof

/-- A write of `I` touches no part but `I` (R12). -/
theorem keptBut_setIndex (a : Word) (s : State) : KeptBut [.index] s (s.setIndex a) := by
  intro p hp
  cases p <;> simp_all [Part.Same]

/-- `Annn` writes the zero-extended address to `I` and goes on to the next instruction (R140). -/
theorem exec_ldI (addr : Addr) (s : State) :
    exec (.ldI addr) s = complete .next false (s.setIndex (addrWord addr)) := rfl

/-- Settles O38: `Annn` is a write of `I`, whose frame `keptBut_setIndex` gives. -/
theorem loadIndexSetsTheAddress : Obligations.LoadIndexSetsTheAddress := by
  intro addr s
  have hdecode : decodeWord (encodeA 0xA addr) = some (.ldI addr) := by simp [decodeWord]
  refine ⟨hdecode, _, exec_ldI addr s, rfl, rfl, ?_, stepEnds_setPc_endStep false _ s _ rfl rfl⟩
  simpa using keptBut_setIndex (addrWord addr) s

end Sys2Proof.Machine
end

section
/-! SUPPORT. Clearing the display (spec/45_display.md R150): the blank screen, and an instruction that writes the
screen and keeps every other part. -/

namespace Sys2Proof.Machine

open Sys2Proof

/-- A write of the screen touches no part but the screen (R20). -/
theorem keptBut_setScreen (g : Grid) (s : State) : KeptBut [.screen] s (s.setScreen g) := by
  intro p hp
  cases p <;> simp_all [Part.Same]

/-- Every pixel of the blank screen is off (R150). -/
@[simp] theorem Grid.pixel_blank (y : Row) (x : Col) : Grid.blank.pixel y x = false := by
  simp [Grid.pixel, Grid.blank]

/-- `00E0` writes the blank screen, returns `changed = 1` and goes on to the next instruction (R150, R89). -/
theorem exec_cls (s : State) : exec .cls s = complete .next true (s.setScreen Grid.blank) := rfl

/-- Settles O45: `00E0` is a write of the blank screen, whose frame `keptBut_setScreen` gives. -/
theorem clearTurnsEveryPixelOff : Obligations.ClearTurnsEveryPixelOff := by
  have hdecode : decodeWord 0x00E0 = some .cls := by decide
  refine ⟨hdecode, fun s => ⟨_, exec_cls s, ?_, rfl, ?_, stepEnds_setPc_endStep true _ s _ rfl rfl⟩⟩
  · simp
  · simpa using keptBut_setScreen Grid.blank s

end Sys2Proof.Machine
end

section
/-! SUPPORT. Timer registers (spec/46_timer_key.md R160 to R162): the read of `DT` is a `writeResult`, and the two
writes touch one timer and keep every other part. In a Step they act on the state after the decrement (R85). -/

namespace Sys2Proof.Machine

open Sys2Proof

/-- A write of `DT` touches no part but the delay timer (R161). -/
theorem keptBut_setDelay (b : Byte) (s : State) : KeptBut [.delay] s (s.setDelay b) := by
  intro p hp
  cases p <;> simp_all [Part.Same]

/-- A write of `ST` touches no part but the sound timer (R162). -/
theorem keptBut_setSound (b : Byte) (s : State) : KeptBut [.sound] s (s.setSound b) := by
  intro p hp
  cases p <;> simp_all [Part.Same]

/-- `Fx07` is a `writeResult` of `DT` (R160). -/
theorem exec_ldVxDt (x : Reg) (s : State) : exec (.ldVxDt x) s = writeResult x s.dt s := rfl

/-- `Fx15` writes `V[x]` to `DT` and goes on to the next instruction (R161). -/
theorem exec_ldDtVx (x : Reg) (s : State) :
    exec (.ldDtVx x) s = complete .next false (s.setDelay (s.reg x)) := rfl

/-- `Fx18` writes `V[x]` to `ST` and goes on to the next instruction (R162). -/
theorem exec_ldStVx (x : Reg) (s : State) :
    exec (.ldStVx x) s = complete .next false (s.setSound (s.reg x)) := rfl

theorem exec_ldVxDt_setsRegister (x : Reg) (s : State) :
    ∃ t, exec (.ldVxDt x) s = .next t ∧ SetsRegister x s.dt s t :=
  exec_ldVxDt x s ▸ writeResult_setsRegister x s.dt s

theorem exec_ldDtVx_setsDelay (x : Reg) (s : State) :
    ∃ t, exec (.ldDtVx x) s = .next t ∧ t.dt = s.reg x ∧ t.pc = s.pc + 2 ∧ KeptBut [.delay] s t ∧
      StepEnds false s t := by
  refine ⟨_, exec_ldDtVx x s, rfl, rfl, ?_, stepEnds_setPc_endStep false _ s _ rfl rfl⟩
  simpa using keptBut_setDelay (s.reg x) s

theorem exec_ldStVx_setsSound (x : Reg) (s : State) :
    ∃ t, exec (.ldStVx x) s = .next t ∧ t.st = s.reg x ∧ t.pc = s.pc + 2 ∧ KeptBut [.sound] s t ∧
      StepEnds false s t := by
  refine ⟨_, exec_ldStVx x s, rfl, rfl, ?_, stepEnds_setPc_endStep false _ s _ rfl rfl⟩
  simpa using keptBut_setSound (s.reg x) s

/-- After the decrement of a Step `DT` is one less than the Step began with (R85). -/
theorem State.tickTimers_dt_eq_oneLess (s : State) : s.tickTimers.dt = oneLess s.dt :=
  countDown_eq_oneLess s.dt

/-- Settles O49: the three effects hold on every state, so on the one after the decrement, where `DT` is one less
and every register as before. -/
theorem timerRegistersAreReadAndWritten : Obligations.TimerRegistersAreReadAndWritten := by
  intro x s
  refine ⟨decodeWord_encodeXK_F x 0x07, decodeWord_encodeXK_F x 0x15, decodeWord_encodeXK_F x 0x18,
    exec_ldVxDt_setsRegister x s, exec_ldDtVx_setsDelay x s, exec_ldStVx_setsSound x s,
    fun hs hp => ⟨fun hi => ?_, fun hi => ?_, fun hi => ?_⟩⟩
  · obtain ⟨t, hexec, hx, -, -, hkept, -⟩ := exec_ldVxDt_setsRegister x s.tickTimers
    have hdt : t.dt = s.tickTimers.dt := hkept .delay (by decide)
    rw [s.tickTimers_dt_eq_oneLess] at hx hdt
    exact ⟨t, (step_executes s _ hs hp hi).trans hexec, hx, hdt⟩
  · obtain ⟨t, hexec, hdt, -⟩ := exec_ldDtVx_setsDelay x s.tickTimers
    exact ⟨t, (step_executes s _ hs hp hi).trans hexec, hdt⟩
  · obtain ⟨t, hexec, hst, -⟩ := exec_ldStVx_setsSound x s.tickTimers
    exact ⟨t, (step_executes s _ hs hp hi).trans hexec, hst⟩

end Sys2Proof.Machine
end

section
/-! SUPPORT. Reset and Load (spec/70_reset_and_hazards.md R190, R192, R193): the reset contents of each bank of
cells, and the frame of an accepted and of a rejected Load. -/

namespace Sys2Proof.Machine

open Sys2Proof

/-! ### Reset (R190) -/

theorem length_fontTable : fontTable.length = 80 := rfl

/-- The reset contents begin with the font (R19, R43). -/
theorem getElem?_fontTable_of_lt (a : Nat) (ha : a < 80) : fontTable[a]? = some (Memory.initial a) := by
  have hfont : a < fontTable.length := length_fontTable ▸ ha
  simp [Memory.initial, hfont]

/-- The reset contents are zero after the font (R19). -/
theorem Memory.initial_of_ge (a : Nat) (ha : 80 ≤ a) : Memory.initial a = 0 :=
  List.getD_eq_default fontTable 0 (length_fontTable ▸ ha)

@[simp] theorem State.reg_reset (r : Reg) : State.reset.reg r = 0 := by
  simp [State.reg, State.reset]

theorem State.stack_reset (k : Fin 16) : State.reset.stack[k] = 0 := by
  simp [State.reset]

/-- The screen is blank at reset. -/
@[simp] theorem State.pixel_reset (y : Row) (x : Col) : State.reset.pixel y x = false :=
  Grid.pixel_blank y x

/-- Settles O12: the banks of cells by the lemmas above, the single cells by what `State.reset` writes out. -/
theorem resetHoldsTheStatedValues : Obligations.ResetHoldsTheStatedValues :=
  ⟨State.reg_reset, rfl, rfl, rfl, State.stack_reset, rfl, rfl, getElem?_fontTable_of_lt, Memory.initial_of_ge,
    State.pixel_reset, rfl, rfl, rfl⟩

/-! ### Load (R192, R193) -/

/-- The place in the lifecycle is no part of the spec's state, so moving it keeps every frame (R191). -/
theorem KeptBut.withLifecycle {written : List Part} {s t : State} (h : KeptBut written s t) (l : Lifecycle) :
    KeptBut written s { t with lifecycle := l } := by
  intro p hp
  cases p <;> exact h _ hp

/-- A write of memory touches no part but memory (R19). -/
theorem keptBut_withMem (m : Memory) (s : State) : KeptBut [.memory] s { s with mem := m } := by
  intro p hp
  cases p <;> simp_all [Part.Same, State.reg, State.pixel]

/-- Latching a cause touches no part but `FAULT` (R22). -/
theorem keptBut_latch (c : Cause) (s : State) : KeptBut [.fault] s (s.latch c) := by
  intro p hp
  cases p <;> simp_all [Part.Same]

/-- Byte `k` of a run of writes is read back at its place (R47, R192). -/
theorem Memory.read_writeList_getElem (ws : List Byte) (m : Memory) (a k : Nat) (h : k < ws.length) :
    (m.writeList a ws).read (a + k) = ws[k] := by
  rw [Memory.read_writeList, if_pos (by omega)]
  simp [h]

/-- A run of writes leaves the bytes before and after it alone (R47, R192). -/
theorem Memory.read_writeList_outside (ws : List Byte) (m : Memory) (a b : Nat) (h : b < a ∨ a + ws.length ≤ b) :
    (m.writeList a ws).read b = m.read b := by
  rw [Memory.read_writeList, if_neg (by omega)]

/-- Settles O51: `load_of_fits` and `load_of_too_large` give the two answers, the run of writes gives the bytes. -/
theorem loadPlacesTheProgram : Obligations.LoadPlacesTheProgram := by
  intro rom s hs
  refine ⟨fun hfits => ?_, fun hlong => ?_⟩
  · refine ⟨_, load_of_fits rom s hs hfits, ?_, ?_, rfl, ?_⟩
    · exact Memory.read_writeList_getElem rom s.mem 0x200
    · exact Memory.read_writeList_outside rom s.mem 0x200
    · exact (keptBut_withMem (s.mem.writeList Config.progBase rom) s).withLifecycle .loaded
  · refine ⟨_, load_of_too_large rom s hs hlong, rfl, rfl, ?_⟩
    exact (keptBut_latch .romTooLarge s).withLifecycle .loaded

end Sys2Proof.Machine
end

section
/-! SUPPORT. The decoder and the encoder held against each other and against the opcode map (spec/30_encoding.md R60 to
R68): every instruction comes back from its word, every decoded word is the encoding of what it decodes to, and the
words of a row are the encodings of that row's instructions. -/

namespace Sys2Proof.Machine

open Sys2Proof

/-! ### From an instruction to its word and back -/

/-- The words whose first nibble is E are told apart by `kk` (R66). -/
theorem decodeWord_encodeXK_E (x : Reg) (kk : Byte) : decodeWord (encodeXK 0xE x kk) = decodeE x kk := by
  simp [decodeWord]

/-- Every instruction comes back from its word: the two fixed words, then the formats `A`, `XK`, `XY`, `XYN` and
`XL` (R64, R66). -/
theorem decodeWord_encode (i : Instr) : decodeWord (encode i) = some i := by
  cases i with
  | cls | ret => decide
  | jp | call | ldI | jpV0 => simp [encode, decodeWord]
  | seImm | sneImm | ldImm | addImm | rnd => simp [encode, decodeWord]
  | seReg | sneReg => simp [encode, decodeWord, nibbleOf]
  | drw => simp [encode, decodeWord]
  | ldReg x y | orReg x y | andReg x y | xorReg x y | addReg x y | sub x y | shr x y | subn x y | shl x y =>
    exact decodeWord_encodeXYN_8 x y _
  | skp x | sknp x => exact decodeWord_encodeXK_E x _
  | ldVxDt x | ldVxK x | ldDtVx x | ldStVx x | addI x | ldF x | ldB x | stRegs x | ldRegs x =>
    exact decodeWord_encodeXK_F x _

/-- Settles O1: the decoder reads laid-out bytes as `decodeWord` reads the word, and `decodeWord_encode` says what
that is. -/
theorem decodeOfEncodeGivesTheInstruction : Obligations.DecodeOfEncodeGivesTheInstruction := by
  intro i rest
  rw [decode_wordBytes, decodeWord_encode]

/-! ### From a word to its fields and back -/

/-- A word in format `A` of its own fields (R62, R64). -/
theorem encodeA_fields {op : Word} {a : Nibble} (hA : fieldA op = a) : encodeA a (fieldAddr op) = op := by
  subst hA
  apply BitVec.eq_of_toNat_eq
  rw [toNat_encodeA, toNat_fieldA, toNat_fieldAddr]
  omega

/-- A word in format `XK` or `XL` of its own fields (R62, R64). -/
theorem encodeXK_fields {op : Word} {a : Nibble} {kk : Byte} (hA : fieldA op = a) (hKk : fieldKk op = kk) :
    encodeXK a (Nibble.index (fieldB op)) kk = op := by
  subst hA hKk
  apply BitVec.eq_of_toNat_eq
  rw [toNat_encodeXK, toNat_index, toNat_fieldA, toNat_fieldB, toNat_fieldKk]
  omega

/-- A word in format `XYN` or `XY` of its own fields (R62, R64). -/
theorem encodeXYN_fields {op : Word} {a : Nibble} {n : Fin 16} (hA : fieldA op = a)
    (hD : Nibble.index (fieldD op) = n) :
    encodeXYN a (Nibble.index (fieldB op)) (Nibble.index (fieldC op)) n = op := by
  subst hA hD
  apply BitVec.eq_of_toNat_eq
  rw [toNat_encodeXYN, toNat_index, toNat_index, toNat_index, toNat_fieldA, toNat_fieldB, toNat_fieldC, toNat_fieldD]
  omega

/-! ### The rows of the opcode map (R65, R66) -/

/-- Words that agree under a mask agree on a field that the mask covers. -/
theorem extractLsb'_congr_of_mask {u w m : Word} {start len : Nat} (h : u &&& m = w &&& m)
    (hm : m.extractLsb' start len = BitVec.allOnes len) : u.extractLsb' start len = w.extractLsb' start len := by
  have hand := congrArg (BitVec.extractLsb' start len) h
  rwa [BitVec.extractLsb'_and, BitVec.extractLsb'_and, hm, BitVec.and_allOnes, BitVec.and_allOnes] at hand

/-- Every instruction's word is one of its own row. -/
theorem encode_and_row_mask (i : Instr) : encode i &&& i.row.mask = i.row.fixed :=
  match i with
  | .cls => Laws.EncodesItsRow.cls
  | .ret => Laws.EncodesItsRow.ret
  | .jp addr => Laws.EncodesItsRow.jp addr
  | .call addr => Laws.EncodesItsRow.call addr
  | .seImm x kk => Laws.EncodesItsRow.seImm x kk
  | .sneImm x kk => Laws.EncodesItsRow.sneImm x kk
  | .seReg x y => Laws.EncodesItsRow.seReg x y
  | .ldImm x kk => Laws.EncodesItsRow.ldImm x kk
  | .addImm x kk => Laws.EncodesItsRow.addImm x kk
  | .ldReg x y => Laws.EncodesItsRow.ldReg x y
  | .orReg x y => Laws.EncodesItsRow.orReg x y
  | .andReg x y => Laws.EncodesItsRow.andReg x y
  | .xorReg x y => Laws.EncodesItsRow.xorReg x y
  | .addReg x y => Laws.EncodesItsRow.addReg x y
  | .sub x y => Laws.EncodesItsRow.sub x y
  | .shr x y => Laws.EncodesItsRow.shr x y
  | .subn x y => Laws.EncodesItsRow.subn x y
  | .shl x y => Laws.EncodesItsRow.shl x y
  | .sneReg x y => Laws.EncodesItsRow.sneReg x y
  | .ldI addr => Laws.EncodesItsRow.ldI addr
  | .jpV0 addr => Laws.EncodesItsRow.jpV0 addr
  | .rnd x kk => Laws.EncodesItsRow.rnd x kk
  | .drw x y n => Laws.EncodesItsRow.drw x y n
  | .skp x => Laws.EncodesItsRow.skp x
  | .sknp x => Laws.EncodesItsRow.sknp x
  | .ldVxDt x => Laws.EncodesItsRow.ldVxDt x
  | .ldVxK x => Laws.EncodesItsRow.ldVxK x
  | .ldDtVx x => Laws.EncodesItsRow.ldDtVx x
  | .ldStVx x => Laws.EncodesItsRow.ldStVx x
  | .addI x => Laws.EncodesItsRow.addI x
  | .ldF x => Laws.EncodesItsRow.ldF x
  | .ldB x => Laws.EncodesItsRow.ldB x
  | .stRegs x => Laws.EncodesItsRow.stRegs x
  | .ldRegs x => Laws.EncodesItsRow.ldRegs x

/-- A word that a row accepts agrees with the row's instructions under the mask. -/
theorem and_row_mask_of_accepts {i : Instr} {op : Word} (h : i.row.accepts op = true) :
    op &&& i.row.mask = encode i &&& i.row.mask := by
  rw [encode_and_row_mask]
  simpa [OpcodeRow.accepts] using h

/-- Every mask covers field `a`. -/
theorem fieldA_row_mask (i : Instr) : fieldA i.row.mask = BitVec.allOnes 4 := by
  cases i <;> (simp only [Instr.row]; decide)

/-- A word that a row accepts decodes: field `a`, and `d` or `kk` where the row fixes it, are those of the row's
instructions, and every other field is an operand. -/
theorem isSome_decodeWord_of_accepts (i : Instr) (op : Word) (h : i.row.accepts op = true) :
    (decodeWord op).isSome = true := by
  have h := and_row_mask_of_accepts h
  have hA : fieldA op = fieldA (encode i) := extractLsb'_congr_of_mask h (fieldA_row_mask i)
  cases i with
  | cls | ret =>
    have hop : op &&& BitVec.allOnes 16 = _ &&& BitVec.allOnes 16 := h
    rw [BitVec.and_allOnes, BitVec.and_allOnes] at hop
    rw [hop]
    decide
  | jp | call | ldI | jpV0 | seImm | sneImm | ldImm | addImm | rnd | drw => simp [decodeWord, hA, encode]
  | seReg | sneReg =>
    have hD : fieldD op = fieldD (encode _) := extractLsb'_congr_of_mask h (rfl : fieldD 0xF00F = BitVec.allOnes 4)
    simp [decodeWord, hA, hD, encode, nibbleOf]
  | ldReg | orReg | andReg | xorReg | addReg | sub | shr | subn | shl =>
    have hD : fieldD op = fieldD (encode _) := extractLsb'_congr_of_mask h (rfl : fieldD 0xF00F = BitVec.allOnes 4)
    simp [decodeWord, decodeEight, hA, hD, encode, nibbleOf]
  | skp | sknp =>
    have hKk : fieldKk op = fieldKk (encode _) := extractLsb'_congr_of_mask h (rfl : fieldKk 0xF0FF = BitVec.allOnes 8)
    simp [decodeWord, decodeE, hA, hKk, encode]
  | ldVxDt | ldVxK | ldDtVx | ldStVx | addI | ldF | ldB | stRegs | ldRegs =>
    have hKk : fieldKk op = fieldKk (encode _) := extractLsb'_congr_of_mask h (rfl : fieldKk 0xF0FF = BitVec.allOnes 8)
    simp [decodeWord, decodeF, hA, hKk, encode]

/-- The opcode map holds the rows of the instructions. -/
theorem mem_opcodeMap_iff (r : OpcodeRow) : r ∈ opcodeMap ↔ ∃ i : Instr, i.row = r := by
  constructor
  · intro h
    simp only [opcodeMap, ← List.map_append, List.mem_map] at h
    obtain ⟨i, -, hi⟩ := h
    exact ⟨i, hi⟩
  · rintro ⟨i, rfl⟩
    cases i <;> (simp only [Instr.row]; decide)

/-- A word is legal exactly if some instruction's row accepts it (R65). -/
theorem legalOpcode_iff (op : Word) : legalOpcode op = true ↔ ∃ i : Instr, i.row.accepts op = true := by
  simp [legalOpcode, List.any_eq_true, mem_opcodeMap_iff]

/-! ### From a word to its instruction and back -/

theorem encode_of_decodeEight {op : Word} {i : Instr} (hA : fieldA op = 0x8)
    (h : decodeEight (Nibble.index (fieldB op)) (Nibble.index (fieldC op)) (fieldD op) = some i) : encode i = op := by
  unfold decodeEight at h
  split_ifs at h with hD hD hD hD hD hD hD hD hD <;> cases h <;> exact encodeXYN_fields hA (congrArg Nibble.index hD)

theorem encode_of_decodeE {op : Word} {i : Instr} (hA : fieldA op = 0xE)
    (h : decodeE (Nibble.index (fieldB op)) (fieldKk op) = some i) : encode i = op := by
  unfold decodeE at h
  split_ifs at h with hKk hKk <;> cases h <;> exact encodeXK_fields hA hKk

theorem encode_of_decodeF {op : Word} {i : Instr} (hA : fieldA op = 0xF)
    (h : decodeF (Nibble.index (fieldB op)) (fieldKk op) = some i) : encode i = op := by
  unfold decodeF at h
  split_ifs at h with hKk hKk hKk hKk hKk hKk hKk hKk hKk <;> cases h <;> exact encodeXK_fields hA hKk

/-- Decoding loses no bit of the word: each first nibble's rows rebuild the word from its fields (R65, R68). -/
theorem encode_of_decodeWord {op : Word} {i : Instr} (h : decodeWord op = some i) : encode i = op := by
  unfold decodeWord at h
  split at h
  case h_1 =>
    split_ifs at h with hop hop <;> (cases h; exact hop.symm)
  case h_2 hA | h_3 hA | h_11 hA | h_12 hA =>
    cases h
    exact encodeA_fields (BitVec.eq_of_toNat_eq hA)
  case h_4 hA | h_5 hA | h_7 hA | h_8 hA | h_13 hA =>
    cases h
    exact encodeXK_fields (BitVec.eq_of_toNat_eq hA) rfl
  case h_6 hA | h_10 hA =>
    split_ifs at h with hD
    cases h
    exact encodeXYN_fields (BitVec.eq_of_toNat_eq hA) (congrArg Nibble.index hD)
  case h_9 hA => exact encode_of_decodeEight (BitVec.eq_of_toNat_eq hA) h
  case h_14 hA =>
    cases h
    exact encodeXYN_fields (BitVec.eq_of_toNat_eq hA) rfl
  case h_15 hA => exact encode_of_decodeE (BitVec.eq_of_toNat_eq hA) h
  case h_16 =>
    refine encode_of_decodeF (BitVec.eq_of_toNat_eq (y := 0xF) ?_) h
    have hlt := (fieldA op).isLt
    simp only [imp_false] at *
    show (fieldA op).toNat = 15
    omega

/-- Settles O2: a word a row accepts decodes, and a decoded word is the encoding of what it decodes to, so it is
one of that instruction's row. -/
theorem wordsDecodeExactlyWhenTheyMatchARow : Obligations.WordsDecodeExactlyWhenTheyMatchARow := by
  refine fun op => ⟨fun hlegal => ?_, fun hillegal => ?_⟩
  · obtain ⟨r, hr⟩ := (legalOpcode_iff op).1 hlegal
    obtain ⟨i, hi⟩ := Option.isSome_iff_exists.1 (isSome_decodeWord_of_accepts r op hr)
    exact ⟨i, hi, encode_of_decodeWord hi⟩
  · by_contra hsome
    obtain ⟨i, hi⟩ := Option.ne_none_iff_exists'.1 hsome
    have hrow : i.row.accepts op = true := by
      rw [← encode_of_decodeWord hi, OpcodeRow.accepts, encode_and_row_mask, beq_self_eq_true]
    simp [(legalOpcode_iff op).2 ⟨i, hrow⟩] at hillegal

/-- Settles O3: two rows whose fixed bits differ where both masks look accept no word in common, and every two rows
of the map differ so. -/
theorem opcodeRowsAreDisjoint : Obligations.OpcodeRowsAreDisjoint := by
  have hdiffer : opcodeMap.Pairwise fun r q => r.fixed &&& q.mask ≠ q.fixed &&& r.mask := by decide
  refine hdiffer.imp fun {r q} hne op ⟨hr, hq⟩ => hne ?_
  simp only [OpcodeRow.accepts, beq_iff_eq] at hr hq
  rw [← hr, ← hq, BitVec.and_assoc, BitVec.and_assoc, BitVec.and_comm r.mask]

/-- Settles O4, by running the decoder on each sample word. -/
theorem sampleWordsDecode : Obligations.SampleWordsDecode := by
  unfold Obligations.SampleWordsDecode
  decide

end Sys2Proof.Machine
end

section
/-! SUPPORT. What an instruction does, said once for all of them: it raises the one fault `faultOf` lists, and nothing
else happens (R181); or it has the effect `effectOf` gives, on the parts `partsOf` lists, `PC` moves as `nextPc` lists,
and the Step ends (R87 to R89). The proofs about instructions cite these rules and unfold no `exec` arm. -/

namespace Sys2Proof.Machine

open Sys2Proof

/-! ### The normal form of `exec` -/

/-- The screen and the collision after the `n` sprite bytes at `I` are drawn at (`vx`, `vy`) (R151). -/
def drawnAt (s : State) (vx vy : Byte) (n : Nat) : Drawn Grid := drawSprite vx vy (s.mem.readList s.i.toNat n) s.fb

/-- The state with an instruction's effects but the move of `PC` and the end of the Step, where it raises no fault. -/
def effectOf (i : Instr) (s : State) : State :=
  match i with
  | .cls => s.setScreen Grid.blank
  | .ret => { s with sp := ⟨s.sp.val - 1, by have := s.sp.isLt; omega⟩ }
  | .call _ => (s.push (s.pc + 2)).getD s
  | .jp _ | .jpV0 _ | .seImm _ _ | .sneImm _ _ | .seReg _ _ | .sneReg _ _ | .skp _ | .sknp _ => s
  | .ldImm x kk => s.setReg x kk
  | .addImm x kk => s.setReg x (sumByte (s.reg x) kk)
  | .ldReg x y => s.setReg x (s.reg y)
  | .orReg x y => s.setReg x (s.reg x ||| s.reg y)
  | .andReg x y => s.setReg x (s.reg x &&& s.reg y)
  | .xorReg x y => s.setReg x (s.reg x ^^^ s.reg y)
  | .rnd x kk => s.setReg x (s.rnd &&& kk)
  | .ldVxDt x => s.setReg x s.dt
  | .addReg x y => (s.setFlag (carryFlag (s.reg x) (s.reg y))).setReg x (sumByte (s.reg x) (s.reg y))
  | .sub x y => (s.setFlag (greaterFlag (s.reg x) (s.reg y))).setReg x (differenceByte (s.reg x) (s.reg y))
  | .subn x y => (s.setFlag (greaterFlag (s.reg y) (s.reg x))).setReg x (differenceByte (s.reg y) (s.reg x))
  | .shr x _ => (s.setFlag (lowBitFlag (s.reg x))).setReg x (shiftedRight (s.reg x))
  | .shl x _ => (s.setFlag (highBitFlag (s.reg x))).setReg x (shiftedLeft (s.reg x))
  | .ldI addr => s.setIndex (addrWord addr)
  | .ldF x => s.setIndex (glyphAddress (s.reg x))
  | .addI x => (s.setIndex (BitVec.ofNat 16 (indexSum s.i (s.reg x)))).setFlag (indexFlag s.i (s.reg x))
  | .drw x y n =>
    (s.setScreen (drawnAt s (s.reg x) (s.reg y) n.val).pixels).setFlag
      (flagByte (drawnAt s (s.reg x) (s.reg y) n.val).coll)
  | .ldVxK x => s.enterWait x
  | .ldDtVx x => s.setDelay (s.reg x)
  | .ldStVx x => s.setSound (s.reg x)
  | .ldB x => { s with mem := s.mem.writeList s.i.toNat (bcdDigits (s.reg x)) }
  | .stRegs x => { s with mem := s.mem.writeList s.i.toNat (s.regsUpTo x) }
  | .ldRegs x => s.setRegsFrom 0 (s.mem.readList s.i.toNat (x.val + 1))

/-- The parts of the state an instruction may write (spec/10_state.md). -/
def partsOf (i : Instr) : List Part :=
  match i with
  | .cls => [.screen]
  | .ret | .call _ => [.stack]
  | .jp _ | .jpV0 _ | .seImm _ _ | .sneImm _ _ | .seReg _ _ | .sneReg _ _ | .skp _ | .sknp _ => []
  | .ldImm _ _ | .addImm _ _ | .ldReg _ _ | .orReg _ _ | .andReg _ _ | .xorReg _ _ | .rnd _ _ | .ldVxDt _ => [.regs]
  | .addReg _ _ | .sub _ _ | .subn _ _ | .shr _ _ | .shl _ _ | .ldRegs _ => [.regs]
  | .ldI _ | .ldF _ => [.index]
  | .addI _ => [.regs, .index]
  | .drw _ _ _ => [.regs, .screen]
  | .ldVxK _ => [.keyWait]
  | .ldDtVx _ => [.delay]
  | .ldStVx _ => [.sound]
  | .ldB _ | .stRegs _ => [.memory]

/-- The output `changed` of an instruction: only `00E0` and `Dxyn` set it (R89). -/
def changedBy (i : Instr) : Bool :=
  match i with
  | .cls | .drw _ _ _ => true
  | _ => false

/-- The state after an instruction that raises no fault. -/
def afterOf (i : Instr) (s : State) : State := ((effectOf i s).setPc (nextPc i s)).endStep (changedBy i)

section Guards

variable {α : Type} {P : Prop} [Decidable P] {c d : Cause} {s : State} {got : Option α} {go : α → Result}

/-- Where the listed fault condition does not hold, the access it stands for succeeds and the instruction goes on. -/
theorem orRaise_of_unguarded (hiff : got = none ↔ P) (h : (if P then some c else none) = none) :
    ∃ a, got = some a ∧ orRaise d s got go = go a := by
  have hP : ¬ P := by simpa using h
  obtain ⟨a, rfl⟩ := Option.ne_none_iff_exists'.1 (mt hiff.1 hP)
  exact ⟨a, rfl, rfl⟩

/-- Where the listed fault condition holds, the access it stands for fails and its fault is raised. -/
theorem orRaise_of_guarded (hiff : got = none ↔ P) (h : (if P then some d else none) = some c) :
    orRaise d s got go = raise c s := by
  split_ifs at h with hP
  cases h
  rw [hiff.2 hP]
  rfl

end Guards

@[simp] theorem length_bcdDigits (b : Byte) : (bcdDigits b).length = 3 := rfl

/-- The store of `Fx33` fails exactly when `I + 2` lies above 0xFFF (R143, R174). -/
theorem storeBytes_bcdDigits_eq_none (s : State) (x : Reg) :
    s.storeBytes (baseAddress s) (bcdDigits (s.reg x)) = none ↔ s.i.toNat + 2 > 0xFFF := by
  simp [State.storeBytes_eq_none, baseAddress]

/-- The store of `Fx55` fails exactly when `I + x` lies above 0xFFF (R144, R174). -/
theorem storeBytes_regsUpTo_eq_none (s : State) (x : Reg) :
    s.storeBytes (baseAddress s) (s.regsUpTo x) = none ↔ s.i.toNat + x.val > 0xFFF := by
  simp [State.storeBytes_eq_none, baseAddress]

/-- The load of `Fx65` fails exactly when `I + x` lies above 0xFFF (R145, R174). -/
theorem loadBytes_regs_eq_none (s : State) (x : Reg) :
    s.loadBytes (baseAddress s) (x.val + 1) = none ↔ s.i.toNat + x.val > 0xFFF := by
  simp [State.loadBytes_eq_none, baseAddress]

/-- An instruction whose fault condition does not hold completes. -/
theorem exec_of_faultOf_none {i : Instr} {s : State} (h : faultOf i s = none) : exec i s = .next (afterOf i s) := by
  cases i with
  | cls | jp | jpV0 | ldImm | addImm | ldReg | orReg | andReg | xorReg | addReg | sub | shr | subn | shl => rfl
  | ldI | rnd | ldVxDt | ldVxK | ldDtVx | ldStVx | addI | ldF => rfl
  | seImm | sneImm | seReg | sneReg => exact (complete_eq_next ..).2 (by simp [afterOf, effectOf, nextPc, changedBy])
  | ret =>
    obtain ⟨⟨a, t⟩, hpop, hexec⟩ := orRaise_of_unguarded s.pop_eq_none h
    obtain ⟨-, rfl, rfl⟩ := (s.pop_eq_some t a).1 hpop
    exact hexec
  | call addr =>
    obtain ⟨t, hpush, hexec⟩ := orRaise_of_unguarded (s.push_eq_none (s.pc + 2)) h
    have heffect : effectOf (.call addr) s = t := congrArg (Option.getD · s) hpush
    rw [afterOf, heffect]
    exact hexec
  | drw x y n =>
    obtain ⟨bs, hload, hexec⟩ := orRaise_of_unguarded (s.loadBytes_eq_none (baseAddress s) n.val) h
    obtain ⟨-, rfl⟩ := (s.loadBytes_eq_some _ _ bs).1 hload
    exact hexec
  | ldRegs x =>
    obtain ⟨bs, hload, hexec⟩ := orRaise_of_unguarded (loadBytes_regs_eq_none s x) h
    obtain ⟨-, rfl⟩ := (s.loadBytes_eq_some _ _ bs).1 hload
    exact hexec.trans ((complete_eq_next ..).2 (by simp [afterOf, effectOf, nextPc, changedBy, baseAddress]))
  | ldB x =>
    obtain ⟨t, hstore, hexec⟩ := orRaise_of_unguarded (storeBytes_bcdDigits_eq_none s x) h
    obtain ⟨-, rfl⟩ := (s.storeBytes_eq_some t _ _).1 hstore
    exact hexec
  | stRegs x =>
    obtain ⟨t, hstore, hexec⟩ := orRaise_of_unguarded (storeBytes_regsUpTo_eq_none s x) h
    obtain ⟨-, rfl⟩ := (s.storeBytes_eq_some t _ _).1 hstore
    exact hexec
  | skp x | sknp x =>
    obtain ⟨k, hkey, hexec⟩ := orRaise_of_unguarded (keyOf_eq_none (s.reg x)) h
    have hk := (keyOf_eq_some ..).1 hkey
    exact hexec.trans ((complete_eq_next ..).2 (by simp [afterOf, effectOf, nextPc, changedBy, keyHeld, hk]))

/-- An instruction whose fault condition holds raises that fault. -/
theorem exec_of_faultOf_some {i : Instr} {s : State} {c : Cause} (h : faultOf i s = some c) :
    exec i s = raise c s := by
  cases i with
  | ret => exact orRaise_of_guarded s.pop_eq_none h
  | call => exact orRaise_of_guarded (s.push_eq_none (s.pc + 2)) h
  | drw x y n => exact orRaise_of_guarded (s.loadBytes_eq_none (baseAddress s) n.val) h
  | ldB x => exact orRaise_of_guarded (storeBytes_bcdDigits_eq_none s x) h
  | stRegs x => exact orRaise_of_guarded (storeBytes_regsUpTo_eq_none s x) h
  | ldRegs x => exact orRaise_of_guarded (loadBytes_regs_eq_none s x) h
  | skp x | sknp x => exact orRaise_of_guarded (keyOf_eq_none (s.reg x)) h
  | _ => cases h

/-- An instruction completes exactly when its fault condition does not hold, and then in one way. -/
theorem exec_eq_next_iff (i : Instr) (s t : State) : exec i s = .next t ↔ faultOf i s = none ∧ t = afterOf i s := by
  cases h : faultOf i s with
  | none => simp [exec_of_faultOf_none h, eq_comm]
  | some c => simp [exec_of_faultOf_some h, raise]

/-- An instruction faults exactly when its fault condition holds, and then with that cause. -/
theorem exec_eq_fault_iff (i : Instr) (s : State) (f : Fault) :
    exec i s = .fault f ↔ ∃ c, faultOf i s = some c ∧ raise c s = .fault f := by
  cases h : faultOf i s with
  | none => simp [exec_of_faultOf_none h]
  | some c => simp [exec_of_faultOf_some h]

/-! ### What the effect leaves alone -/

theorem Part.Same.trans {p : Part} {s t u : State} (h : p.Same s t) (h' : p.Same t u) : p.Same s u := by
  cases p with
  | regs => exact fun r => (h' r).trans (h r)
  | memory => exact fun a => (h' a).trans (h a)
  | screen => exact fun y x => (h' y x).trans (h y x)
  | stack => exact ⟨h'.1.trans h.1, fun k => (h'.2 k).trans (h.2 k)⟩
  | keyWait => exact ⟨h'.1.trans h.1, h'.2.trans h.2⟩
  | index | delay | sound | fault => exact Eq.trans h' h

/-- Two writes in a row keep the parts that both keep. -/
theorem KeptBut.trans {written : List Part} {s t u : State} (h : KeptBut written s t) (h' : KeptBut written t u) :
    KeptBut written s u :=
  fun p hp => (h p hp).trans (h' p hp)

/-- A frame that lists more parts says less. -/
theorem KeptBut.mono {listed written : List Part} {s t : State} (h : KeptBut listed s t) (hsub : listed ⊆ written) :
    KeptBut written s t :=
  fun p hp => h p fun hlisted => hp (hsub hlisted)

/-- A write of `SP` and the slots touches no part but the stack (R15, R16). -/
theorem keptBut_withStack (st : Vector Word 16) (sp : Fin 17) (s : State) :
    KeptBut [.stack] s { s with stack := st, sp := sp } := by
  intro p hp
  cases p <;> simp_all [Part.Same, State.reg, State.byteAt, State.pixel]

/-- A push, where there is room, touches no part but the stack (R102). -/
theorem keptBut_push (a : Word) (s : State) : KeptBut [.stack] s ((s.push a).getD s) := by
  cases hpush : s.push a with
  | none => exact KeptBut.refl _ s
  | some t =>
    obtain ⟨-, rfl⟩ := (s.push_eq_some a t).1 hpush
    exact keptBut_withStack _ _ s

/-- A run of register writes touches no part but the registers (R145). -/
theorem keptBut_setRegsFrom (k : Nat) (bs : List Byte) (s : State) : KeptBut [.regs] s (s.setRegsFrom k bs) := by
  rw [State.setRegsFrom_eq]
  intro p hp
  cases p <;> simp_all [Part.Same, State.byteAt, State.pixel]

/-- The flag is a register (R11). -/
theorem keptBut_setFlag (b : Byte) (s : State) : KeptBut [.regs] s (s.setFlag b) :=
  keptBut_setReg Config.flagReg b s

/-- The effect of an instruction stays within the parts listed for it. -/
theorem keptBut_effectOf (i : Instr) (s : State) : KeptBut (partsOf i) s (effectOf i s) := by
  cases i with
  | jp | jpV0 | seImm | sneImm | seReg | sneReg | skp | sknp => exact KeptBut.refl _ s
  | cls => exact keptBut_setScreen _ s
  | ret => exact keptBut_withStack _ _ s
  | call => exact keptBut_push _ s
  | ldImm | addImm | ldReg | orReg | andReg | xorReg | rnd | ldVxDt => exact keptBut_setReg _ _ s
  | addReg | sub | subn | shr | shl => exact (keptBut_setFlag _ s).trans (keptBut_setReg _ _ _)
  | ldI | ldF => exact keptBut_setIndex _ s
  | addI =>
    exact ((keptBut_setIndex _ s).mono (by simp [partsOf])).trans
      ((keptBut_setFlag _ _).mono (by simp [partsOf]))
  | drw =>
    exact ((keptBut_setScreen _ s).mono (by simp [partsOf])).trans
      ((keptBut_setFlag _ _).mono (by simp [partsOf]))
  | ldVxK x => exact keptBut_enterWait x s
  | ldDtVx => exact keptBut_setDelay _ s
  | ldStVx => exact keptBut_setSound _ s
  | ldB | stRegs => exact keptBut_withMem _ s
  | ldRegs => exact keptBut_setRegsFrom _ _ s

/-- The effect of an instruction takes nothing from the lined-up inputs and ends no Step. -/
theorem inputs_effectOf (i : Instr) (s : State) :
    (effectOf i s).inputs = s.inputs ∧ (effectOf i s).stepCount = s.stepCount := by
  cases i with
  | call =>
    simp only [effectOf, State.push]
    split <;> exact ⟨rfl, rfl⟩
  | ldRegs => simp [effectOf]
  | _ => exact ⟨rfl, rfl⟩

/-! ### The state after an instruction -/

section After

variable (i : Instr) (s : State)

@[simp] theorem afterOf_pc : (afterOf i s).pc = nextPc i s := rfl
@[simp] theorem afterOf_sp : (afterOf i s).sp = (effectOf i s).sp := rfl
@[simp] theorem afterOf_stack : (afterOf i s).stack = (effectOf i s).stack := rfl
@[simp] theorem afterOf_i : (afterOf i s).i = (effectOf i s).i := rfl
@[simp] theorem afterOf_dt : (afterOf i s).dt = (effectOf i s).dt := rfl
@[simp] theorem afterOf_st : (afterOf i s).st = (effectOf i s).st := rfl
@[simp] theorem afterOf_mem : (afterOf i s).mem = (effectOf i s).mem := rfl
@[simp] theorem afterOf_fault : (afterOf i s).fault = (effectOf i s).fault := rfl
@[simp] theorem reg_afterOf (r : Reg) : (afterOf i s).reg r = (effectOf i s).reg r := rfl
@[simp] theorem byteAt_afterOf (a : Nat) : (afterOf i s).byteAt a = (effectOf i s).byteAt a := rfl
@[simp] theorem pixel_afterOf (y : Row) (x : Col) : (afterOf i s).pixel y x = (effectOf i s).pixel y x := rfl

theorem keptBut_afterOf : KeptBut (partsOf i) s (afterOf i s) := by
  simpa [afterOf] using keptBut_effectOf i s

theorem stepEnds_afterOf : StepEnds (changedBy i) s (afterOf i s) :=
  stepEnds_setPc_endStep _ _ s _ (inputs_effectOf i s).1 (inputs_effectOf i s).2

end After

/-- An instruction keeps every part that is not listed for it. -/
theorem same_of_exec {i : Instr} {s t : State} (h : exec i s = .next t) {p : Part} (hp : p ∉ partsOf i) :
    p.Same s t := by
  obtain ⟨-, rfl⟩ := (exec_eq_next_iff i s t).1 h
  exact keptBut_afterOf i s p hp

end Sys2Proof.Machine
end

section
/-! SUPPORT. The rules that hold of every instruction: when it faults, which registers, bytes and other parts it may
change, how it moves `PC`, and which input of the Step it can see (spec/10_state.md, spec/60_exceptions.md). -/

namespace Sys2Proof.Machine

open Sys2Proof

/-! ### Faults -/

/-- Settles O11: the two halves of the normal form of `exec`. -/
theorem instructionsFaultExactlyAsListed : Obligations.InstructionsFaultExactlyAsListed := by
  intro i s
  cases h : faultOf i s with
  | none => exact ⟨_, exec_of_faultOf_none h⟩
  | some c => exact ⟨_, exec_of_faultOf_some h, Cause.cause_fault c _⟩

/-- Of the faults an instruction raises, `DATA_OOB` is the one whose condition `faultOf` lists as that. -/
theorem exec_eq_dataOob_iff (i : Instr) (s : State) :
    (∃ h, exec i s = .fault (.dataOob h)) ↔ faultOf i s = some .dataOob := by
  constructor
  · rintro ⟨h, hexec⟩
    obtain ⟨c, hc, hraise⟩ := (exec_eq_fault_iff i s _).1 hexec
    obtain ⟨rfl, -⟩ := (raise_eq_fault c s _).1 hraise
    exact hc
  · exact fun h => ⟨_, exec_of_faultOf_some h⟩

/-- Settles O44: the limits are those `faultOf` lists. -/
theorem dataAccessAboveMemoryFaults : Obligations.DataAccessAboveMemoryFaults := by
  intro x y n s
  simp only [exec_eq_dataOob_iff, faultOf, Option.ite_none_right_eq_some, and_true, and_self]

/-! ### Registers (R10, R26) -/

/-- The effect of an instruction leaves every register alone that it is not listed as writing. -/
theorem reg_effectOf_of_not_writes {i : Instr} {r : Reg} (s : State) (h : ¬ Writes i r) :
    (effectOf i s).reg r = s.reg r := by
  cases i with
  | ldImm | addImm | ldReg | orReg | andReg | xorReg | rnd | ldVxDt => exact (State.reg_setReg ..).trans (if_neg h)
  | addReg | sub | subn | shr | shl =>
    obtain ⟨hx, hflag⟩ := not_or.1 h
    simp [effectOf, hx, hflag]
  | addI | drw => exact (State.reg_setFlag ..).trans (if_neg h)
  | ldRegs x =>
    have hr : x.val < r.val := Nat.lt_of_not_le h
    refine (State.reg_setRegsFrom ..).trans (if_neg ?_)
    rw [Memory.length_readList]
    omega
  | _ => exact keptBut_effectOf _ s .regs (by simp [partsOf]) r

/-- Settles O15, by `reg_effectOf_of_not_writes`. -/
theorem registersChangeOnlyAsListed : Obligations.RegistersChangeOnlyAsListed := by
  intro i s t r hexec hwrites
  obtain ⟨-, rfl⟩ := (exec_eq_next_iff i s t).1 hexec
  exact reg_effectOf_of_not_writes s hwrites

theorem flagByte_eq_zero_or_one (b : Bool) : flagByte b = 0 ∨ flagByte b = 1 := by
  cases b <;> simp [flagByte]

/-- The flag written before a result in another register stays (R132). -/
theorem reg_flag_of_ne {x : Reg} (hx : x ≠ 15) (flag result : Byte) (s : State) :
    ((s.setFlag flag).setReg x result).reg 15 = flag := by
  simp [hx.symm]

/-- Settles O16: every flag producer writes a `flagByte` to `VF`, and a result elsewhere leaves it there. -/
theorem flagsAreZeroOrOne : Obligations.FlagsAreZeroOrOne := by
  intro s t i hexec hproducer
  obtain ⟨-, rfl⟩ := (exec_eq_next_iff i s t).1 hexec
  rw [reg_afterOf]
  obtain ⟨x, y, hx, halu⟩ | ⟨x, y, n, rfl⟩ | ⟨x, rfl⟩ := hproducer
  · rcases halu with rfl | rfl | rfl | rfl | rfl <;> exact reg_flag_of_ne hx _ _ s ▸ flagByte_eq_zero_or_one _
  · exact State.reg_setFlag 15 .. ▸ flagByte_eq_zero_or_one _
  · exact State.reg_setFlag 15 .. ▸ flagByte_eq_zero_or_one _

/-! ### The other parts -/

/-- Settles O17: `.index` is a part of no other instruction. -/
theorem onlyIndexInstructionsWriteI : Obligations.OnlyIndexInstructionsWriteI := by
  intro i s t hexec hldI haddI hldF
  refine same_of_exec hexec (p := .index) ?_
  cases i with
  | ldI a => exact absurd rfl (hldI a)
  | addI x => exact absurd rfl (haddI x)
  | ldF x => exact absurd rfl (hldF x)
  | _ => simp [partsOf]

/-- The effect of an instruction leaves every byte alone that it does not store to (R42). -/
theorem byteAt_effectOf_of_not_stores {i : Instr} {s : State} {a : Nat} (h : ¬ Stores i s a) :
    (effectOf i s).byteAt a = s.byteAt a := by
  cases i with
  | ldB x =>
    refine Memory.read_writeList_outside _ _ _ _ ?_
    simp only [Stores] at h
    rw [length_bcdDigits]
    omega
  | stRegs x =>
    refine Memory.read_writeList_outside _ _ _ _ ?_
    simp only [Stores] at h
    rw [State.length_regsUpTo]
    omega
  | _ => exact keptBut_effectOf _ s .memory (by simp [partsOf]) a

/-- Settles O18, by `byteAt_effectOf_of_not_stores`. -/
theorem onlyStoredBytesChange : Obligations.OnlyStoredBytesChange := by
  intro i s t a hexec hstores
  obtain ⟨-, rfl⟩ := (exec_eq_next_iff i s t).1 hexec
  exact byteAt_effectOf_of_not_stores hstores

theorem changedBy_iff (i : Instr) : changedBy i = true ↔ i = .cls ∨ ∃ x y n, i = .drw x y n := by
  cases i <;> simp [changedBy]

/-- An instruction that sets no `changed` has no `.screen` among its parts. -/
theorem screen_not_mem_partsOf {i : Instr} (h : changedBy i = false) : .screen ∉ partsOf i := by
  cases i with
  | cls | drw => cases h
  | _ => simp [partsOf]

/-- Settles O19: `changedBy` is 1 exactly for the two, and only for them `.screen` is a part. -/
theorem onlyDisplayInstructionsTouchTheScreen : Obligations.OnlyDisplayInstructionsTouchTheScreen := by
  intro i s t hexec
  obtain ⟨-, rfl⟩ := (exec_eq_next_iff i s t).1 hexec
  rw [← changedBy_iff, Bool.not_eq_true]
  exact ⟨id, fun h => ⟨h, keptBut_afterOf i s .screen (screen_not_mem_partsOf h)⟩⟩

/-- Settles O20: `.stack` is a part of no other instruction. -/
theorem onlyCallAndReturnTouchTheStack : Obligations.OnlyCallAndReturnTouchTheStack := by
  intro i s t hexec hcall hret
  refine same_of_exec hexec (p := .stack) ?_
  cases i with
  | call a => exact absurd rfl (hcall a)
  | ret => exact absurd rfl hret
  | _ => simp [partsOf]

/-- No instruction has `FAULT` among its parts (R22). -/
theorem fault_not_mem_partsOf (i : Instr) : .fault ∉ partsOf i := by
  cases i <;> simp [partsOf]

/-- Settles O21: `.keyWait` is a part of no other instruction, and `.fault` of none at all. -/
theorem onlyWaitForKeyEntersTheWait : Obligations.OnlyWaitForKeyEntersTheWait := by
  refine fun i s t hexec => ⟨fun hwait => same_of_exec hexec (p := .keyWait) ?_, ?_⟩
  · cases i with
    | ldVxK x => exact absurd rfl (hwait x)
    | _ => simp [partsOf]
  · exact same_of_exec hexec (fault_not_mem_partsOf i)

/-! ### The inputs of the Step (R81) -/

/-- The fault condition of an instruction looks at no input. -/
theorem faultOf_withInputs (i : Instr) (s : State) (l : List StepInput) :
    faultOf i { s with inputs := l } = faultOf i s := by
  cases i <;> rfl

theorem State.push_withInputs (a : Word) (s : State) (l : List StepInput) :
    (State.push a { s with inputs := l }).getD { s with inputs := l } = { (s.push a).getD s with inputs := l } := by
  simp only [State.push]
  split <;> rfl

theorem State.setRegsFrom_withInputs (bs : List Byte) (k : Nat) (s : State) (l : List StepInput) :
    State.setRegsFrom k bs { s with inputs := l } = { s.setRegsFrom k bs with inputs := l } := by
  induction bs generalizing k s with
  | nil => rfl
  | cons b bs ih =>
    simp only [State.setRegsFrom, ← ih]
    split <;> rfl

theorem State.regsFrom_withInputs (s : State) (l : List StepInput) (k n : Nat) :
    State.regsFrom { s with inputs := l } k n = s.regsFrom k n := by
  induction n generalizing k with
  | zero => rfl
  | succ n ih =>
    simp only [State.regsFrom, ih]
    rfl

/-- The effect of an instruction sees at most the random byte, and that only in `Cxkk` (R131). -/
theorem effectOf_withInputs {i : Instr} {s : State} {l : List StepInput}
    (h : (∀ x kk, i ≠ .rnd x kk) ∨ State.rnd { s with inputs := l } = s.rnd) :
    effectOf i { s with inputs := l } = { effectOf i s with inputs := l } := by
  cases i with
  | rnd x kk =>
    have hrnd := h.resolve_left (by simp)
    simp only [effectOf, hrnd]
    rfl
  | call => exact State.push_withInputs _ s l
  | ldRegs => exact State.setRegsFrom_withInputs _ _ s l
  | stRegs =>
    simp only [effectOf, State.regsUpTo, State.regsFrom_withInputs]
  | _ => rfl

/-- The move of `PC` sees at most the key snapshot, and that only in `Ex9E` and `ExA1` (R163, R164). -/
theorem nextPc_withInputs {i : Instr} {s : State} {l : List StepInput}
    (h : (∀ x, i ≠ .skp x) ∧ (∀ x, i ≠ .sknp x) ∨ State.keys { s with inputs := l } = s.keys) :
    nextPc i { s with inputs := l } = nextPc i s := by
  cases i with
  | skp | sknp =>
    have hkeys := h.resolve_left (by simp)
    simp only [nextPc, hkeys]
    rfl
  | _ => rfl

/-- Two states that differ in the input of this Step alone give one answer, where the instruction does not see the
input's random byte or the two bytes are the same, and likewise for the key snapshot. -/
theorem exec_withInput_congr {i : Instr} (s : State) {a b : StepInput} (rest : List StepInput)
    (hrnd : (∀ x kk, i ≠ .rnd x kk) ∨ b.rnd = a.rnd)
    (hkeys : (∀ x, i ≠ .skp x) ∧ (∀ x, i ≠ .sknp x) ∨ b.keys = a.keys) :
    exec i { s with inputs := a :: rest } = exec i { s with inputs := b :: rest } := by
  have hfault := faultOf_withInputs i { s with inputs := a :: rest } (b :: rest)
  cases hf : faultOf i { s with inputs := a :: rest } with
  | some c =>
    rw [exec_of_faultOf_some hf, exec_of_faultOf_some (hfault.trans hf)]
    rfl
  | none =>
    have heffect := effectOf_withInputs (s := { s with inputs := a :: rest }) (l := b :: rest) hrnd
    have hpc := nextPc_withInputs (s := { s with inputs := a :: rest }) (l := b :: rest) hkeys
    have htail : (effectOf i { s with inputs := a :: rest }).inputs = a :: rest := (inputs_effectOf i _).1
    rw [exec_of_faultOf_none hf, exec_of_faultOf_none (hfault.trans hf), afterOf, afterOf, heffect, hpc]
    simp [State.endStep, State.setPc, htail]

/-- Settles O23, by `exec_withInput_congr`. -/
theorem inputsReachOnlyTheirInstructions : Obligations.InputsReachOnlyTheirInstructions := by
  refine fun i s a b rest => ⟨fun hi hkeys => ?_, fun hskp hsknp hrnd => ?_⟩
  · exact exec_withInput_congr s rest (.inl hi) (.inr hkeys.symm)
  · exact exec_withInput_congr s rest (.inr hrnd.symm) (.inl ⟨hskp, hsknp⟩)

end Sys2Proof.Machine
end

section
/-! SUPPORT. The rules that hold of every Step (spec/40_step_cycle.md R82 to R91): which of its forms a Step that
answers a next state or a fault went through, and from that the timers, the precise fault, the moves of `PC`, the
invariant of a run and the order of Loads and Steps. -/

namespace Sys2Proof.Machine

open Sys2Proof

/-! ### The forms of a Step -/

/-- A block is Halted, waiting or Running (R90). -/
theorem State.halted_or_awaitingKey_or_running (s : State) :
    (∃ c, s.fault = some c) ∨ s.AwaitingKey ∨ s.Running := by
  cases hf : s.fault with
  | some c => exact .inl ⟨c, rfl⟩
  | none =>
    cases hw : s.wait with
    | true => exact .inr (.inl ⟨hf, hw⟩)
    | false => exact .inr (.inr ⟨hf, hw⟩)

/-- A waiting Step answers a next state, which differs from the one before at most in the registers and `WAIT` (R84). -/
theorem step_awaitingKey_eq_next (s : State) (h : s.AwaitingKey) :
    ∃ v w, step s = .next (State.endStep false { s with v := v, wait := w }) := by
  rw [step_awaitingKey s h]
  cases lowestHeld s.keys with
  | some k => exact ⟨_, _, rfl⟩
  | none => exact ⟨s.v, s.wait, rfl⟩

/-- A Running Step executes one instruction on the state after the decrement, or raises a fault there (R86, R87). -/
theorem step_running_cases (s : State) (h : s.Running) :
    (s.pc.toNat + 1 ≤ 0xFFF ∧ ∃ i, decodeWord (opcodeAt s) = some i ∧ step s = exec i s.tickTimers) ∨
      ∃ c, step s = raise c s.tickTimers := by
  by_cases hp : s.pc.toNat + 1 > 0xFFF
  · exact .inr ⟨_, step_fetchOob s h hp⟩
  · have hp := Nat.not_lt.1 hp
    cases hi : decodeWord (opcodeAt s) with
    | some i => exact .inl ⟨hp, i, rfl, step_executes s i h hp hi⟩
    | none => exact .inr ⟨_, step_unimplOpcode s h hp hi⟩

/-- A Running Step that answers a next state executed an instruction that completed. -/
theorem exec_of_step_next {s t : State} (hs : s.Running) (h : step s = .next t) :
    s.pc.toNat + 1 ≤ 0xFFF ∧ ∃ i, decodeWord (opcodeAt s) = some i ∧ exec i s.tickTimers = .next t := by
  obtain ⟨hp, i, hi, hstep⟩ | ⟨c, hstep⟩ := step_running_cases s hs
  · exact ⟨hp, i, hi, hstep ▸ h⟩
  · exact absurd (hstep ▸ h) (raise_ne_next c _ t)

/-- A Running Step that faults raised the fault on the state after the decrement, from the fetch, the decode or the
instruction (R181). -/
theorem raise_of_step_fault {s : State} {f : Fault} (hs : s.Running) (h : step s = .fault f) :
    f.halted = (s.tickTimers.latch f.cause).endStep false := by
  have hraise : ∃ c, raise c s.tickTimers = .fault f := by
    obtain ⟨-, i, -, hstep⟩ | ⟨c, hstep⟩ := step_running_cases s hs
    · obtain ⟨c, -, hraise⟩ := (exec_eq_fault_iff i _ f).1 (hstep ▸ h)
      exact ⟨c, hraise⟩
    · exact ⟨c, hstep ▸ h⟩
  obtain ⟨c, hraise⟩ := hraise
  obtain ⟨rfl, hhalted⟩ := (raise_eq_fault c _ f).1 hraise
  exact hhalted

/-- The `PC` a Step ends with where it faults is the one it began with, and a Load is too late after it. -/
theorem halted_of_step_fault {s : State} {f : Fault} (h : step s = .fault f) :
    f.halted.pc = s.pc ∧ f.halted.lifecycle = .stepped := by
  obtain ⟨c, hc⟩ | hs | hs := s.halted_or_awaitingKey_or_running
  · cases (step_halted s c hc).symm.trans h
    rw [Cause.halted_fault]
    exact ⟨rfl, rfl⟩
  · obtain ⟨v, w, hnext⟩ := step_awaitingKey_eq_next s hs
    cases hnext.symm.trans h
  · rw [raise_of_step_fault hs h]
    exact ⟨rfl, rfl⟩

/-! ### The key wait and the Halted Step -/

/-- Leaving the wait writes `WAIT` alone. -/
theorem keptBut_leaveWait (s : State) : KeptBut [.keyWait] s s.leaveWait := by
  intro p hp
  cases p <;> simp_all [Part.Same]

/-- Settles O7, by `step_awaitingKey_resolves`. -/
theorem keyWaitTakesTheLowestHeldKey : Obligations.KeyWaitTakesTheLowestHeldKey := by
  intro s k hs hk hlow
  refine ⟨_, step_awaitingKey_resolves s k hs hk hlow, ?_, fun r hr => ?_, rfl, rfl, rfl, ?_, rfl, rfl, rfl, rfl⟩
  · simp [keyByte]
  · simp [hr]
  · rw [keptBut_endStep]
    exact ((keptBut_setReg _ _ s).mono (by decide)).trans ((keptBut_leaveWait _).mono (by decide))

/-- Settles O8, by `step_awaitingKey_idle`. -/
theorem keyWaitWithoutAKeyChangesNothing : Obligations.KeyWaitWithoutAKeyChangesNothing := by
  intro s hs hnone
  exact ⟨_, step_awaitingKey_idle s hs hnone, rfl, (keptBut_endStep ..).2 (KeptBut.refl [] s), rfl, rfl, rfl, rfl⟩

/-- Settles O9, by `step_halted`. -/
theorem haltedStepChangesNothing : Obligations.HaltedStepChangesNothing := by
  intro s c hc
  refine ⟨_, step_halted s c hc, Cause.cause_fault c _, ?_⟩
  rw [Cause.halted_fault]
  exact ⟨rfl, (keptBut_endStep ..).2 (KeptBut.refl [] s), rfl⟩

/-! ### Timers and faults of a Running Step -/

/-- The decrement of a Step touches no part but the timers (R85). -/
theorem keptBut_tickTimers (s : State) : KeptBut [.delay, .sound] s s.tickTimers := by
  intro p hp
  cases p <;> simp_all [Part.Same]

theorem delay_not_mem_partsOf {i : Instr} (h : ∀ x, i ≠ .ldDtVx x) : .delay ∉ partsOf i := by
  cases i with
  | ldDtVx x => exact absurd rfl (h x)
  | _ => simp [partsOf]

theorem sound_not_mem_partsOf {i : Instr} (h : ∀ x, i ≠ .ldStVx x) : .sound ∉ partsOf i := by
  cases i with
  | ldStVx x => exact absurd rfl (h x)
  | _ => simp [partsOf]

/-- Settles O6: an instruction acts on the state after the decrement, and only `Fx15` and `Fx18` have a timer among
their parts; a fault keeps that state's timers. -/
theorem timersTickInEveryRunningStep : Obligations.TimersTickInEveryRunningStep := by
  refine fun s hs => ⟨fun t i hi hstep => ?_, fun f hstep => ?_⟩
  · obtain ⟨-, j, hj, hexec⟩ := exec_of_step_next hs hstep
    obtain rfl : i = j := Option.some.inj (hi.symm.trans hj)
    obtain ⟨-, ht⟩ := (exec_eq_next_iff i _ t).1 hexec
    refine ⟨fun hdt => ?_, fun hst => ?_, fun x hx => ?_, fun x hx => ?_⟩
    · have hkept : t.dt = s.tickTimers.dt := same_of_exec hexec (delay_not_mem_partsOf hdt)
      exact hkept.trans (countDown_eq_oneLess s.dt)
    · have hkept : t.st = s.tickTimers.st := same_of_exec hexec (sound_not_mem_partsOf hst)
      exact hkept.trans (countDown_eq_oneLess s.st)
    · subst hx ht
      rfl
    · subst hx ht
      rfl
  · rw [raise_of_step_fault hs hstep]
    exact ⟨countDown_eq_oneLess s.dt, countDown_eq_oneLess s.st⟩

/-- Settles O10: the Halted state is the one after the decrement with the cause latched. -/
theorem runningFaultsArePrecise : Obligations.RunningFaultsArePrecise := by
  intro s f hs hstep
  rw [raise_of_step_fault hs hstep]
  refine ⟨rfl, rfl, countDown_eq_oneLess s.dt, countDown_eq_oneLess s.st, ?_, rfl⟩
  rw [keptBut_endStep]
  exact ((keptBut_tickTimers s).mono (by decide)).trans ((keptBut_latch f.cause _).mono (by decide))

/-- Settles O22: `nextPc` is part of the normal form of `exec`, and a fault, a waiting Step and a Halted Step end with
the `PC` they began with. -/
theorem programCounterMovesAsListed : Obligations.ProgramCounterMovesAsListed := by
  refine ⟨fun i s t hexec => ?_, fun i s f hexec => ?_, fun s f hstep => ?_, fun s t hs hstep => ?_⟩
  · obtain ⟨-, rfl⟩ := (exec_eq_next_iff i s t).1 hexec
    exact afterOf_pc i s
  · obtain ⟨c, -, hraise⟩ := (exec_eq_fault_iff i s f).1 hexec
    rw [((raise_eq_fault c s f).1 hraise).2]
    rfl
  · exact (halted_of_step_fault hstep).1
  · obtain ⟨v, w, hnext⟩ := step_awaitingKey_eq_next s hs
    cases hnext.symm.trans hstep
    rfl

/-! ### The invariant of a run -/

/-- Settles O13, from the reset contents of each bank. -/
theorem resetMeetsTheInvariant : Obligations.ResetMeetsTheInvariant := by
  refine ⟨Memory.wf_reset, by decide, fun k => ?_, rfl⟩
  rw [State.stack_reset]
  decide

/-- An instruction that completes keeps the canonical form of memory: what `Fx33` and `Fx55` store lies inside. -/
theorem wf_mem_effectOf {i : Instr} {s : State} (h : faultOf i s = none) (hs : s.mem.wf = true) :
    (effectOf i s).mem.wf = true := by
  cases i with
  | ldB x =>
    refine Memory.wf_writeList _ _ _ ?_ hs
    simp only [faultOf, ite_eq_right_iff, reduceCtorEq, imp_false] at h
    rw [length_bcdDigits, memSize_eq]
    omega
  | stRegs x =>
    refine Memory.wf_writeList _ _ _ ?_ hs
    simp only [faultOf, ite_eq_right_iff, reduceCtorEq, imp_false] at h
    rw [State.length_regsUpTo, memSize_eq]
    omega
  | ldRegs => simpa only [effectOf, State.setRegsFrom_mem] using hs
  | call =>
    simp only [effectOf, State.push]
    split <;> exact hs
  | _ => exact hs

/-- Fetched from inside memory, an instruction moves `PC` to at most 0x10FE: two or four bytes on, to an address of 12
bits, to a return address, or to the sum of `Bnnn` (R13). -/
theorem toNat_nextPc_le {i : Instr} {s : State} (hp : s.pc.toNat + 1 ≤ 0xFFF)
    (hstack : ∀ k : Fin 16, s.stack[k].toNat ≤ 0x1000) : (nextPc i s).toNat ≤ 0x10FE := by
  have htwo : (s.pc + 2).toNat ≤ 0x10FE := by bv_omega
  have hfour : (s.pc + 4).toNat ≤ 0x10FE := by bv_omega
  cases i with
  | ret => exact (hstack ⟨s.sp.val - 1, by omega⟩).trans (by decide)
  | jp addr | call addr =>
    have haddr := addr.isLt
    simp only [nextPc, BitVec.toNat_setWidth]
    omega
  | jpV0 addr =>
    have hreg := (s.reg 0).isLt
    have haddr := addr.isLt
    refine (toNat_offsetTarget s addr).le.trans ?_
    omega
  | seImm | sneImm | seReg | sneReg | skp | sknp =>
    simp only [nextPc]
    split
    · exact hfour
    · exact htwo
  | _ => exact htwo

/-- A call pushes a return address of at most 0x1000, and no other instruction writes a slot (R100, R102). -/
theorem toNat_stack_effectOf_le {i : Instr} {s : State} (hp : s.pc.toNat + 1 ≤ 0xFFF)
    (hstack : ∀ k : Fin 16, s.stack[k].toNat ≤ 0x1000) (k : Fin 16) : (effectOf i s).stack[k].toNat ≤ 0x1000 := by
  cases i with
  | ret => exact hstack k
  | call =>
    have hreturn : (s.pc + 2).toNat ≤ 0x1000 := by bv_omega
    simp only [effectOf, State.push]
    split
    · simp only [Option.getD_some, Fin.getElem_fin, Vector.getElem_set]
      split
      · exact hreturn
      · exact hstack k
    · exact hstack k
  | _ => exact (congrArg BitVec.toNat ((keptBut_effectOf _ s .stack (by simp [partsOf])).2 k)).le.trans (hstack k)

/-- An instruction that completes, fetched from inside memory, keeps the invariant. -/
theorem inv_of_exec {i : Instr} {s t : State} (hs : Inv s) (hp : s.pc.toNat + 1 ≤ 0xFFF) (h : exec i s = .next t) :
    Inv t := by
  obtain ⟨hwf, -, hstack, hfault⟩ := hs
  have hkept : t.fault = s.fault := same_of_exec h (fault_not_mem_partsOf i)
  obtain ⟨hnone, rfl⟩ := (exec_eq_next_iff i s t).1 h
  exact ⟨wf_mem_effectOf hnone hwf, toNat_nextPc_le hp hstack, toNat_stack_effectOf_le hp hstack,
    hkept.trans hfault⟩

/-- Settles O14: a state that meets the invariant is not Halted; a waiting Step touches nothing the invariant speaks
of; a Running Step executes an instruction fetched from inside memory. -/
theorem everyStepKeepsTheInvariant : Obligations.EveryStepKeepsTheInvariant := by
  intro s t hinv hstep
  obtain ⟨c, hc⟩ | hs | hs := s.halted_or_awaitingKey_or_running
  · simp [step_halted s c hc] at hstep
  · obtain ⟨v, w, hnext⟩ := step_awaitingKey_eq_next s hs
    cases hnext.symm.trans hstep
    exact hinv
  · obtain ⟨hp, i, -, hexec⟩ := exec_of_step_next hs hstep
    exact inv_of_exec (s := s.tickTimers) hinv hp hexec

/-! ### The order of Loads and Steps (R191) -/

/-- Whatever a Load answers, it is the one Load: it is refused, or the block's place is past it (R191, R193). -/
theorem load_cases (rom : List Byte) (s : State) :
    (∃ t, load rom s = .next t ∧ t.lifecycle = .loaded) ∨
      (∃ f, load rom s = .fault f ∧ f.halted.lifecycle = .loaded) ∨ load rom s = .refused .loadOutOfOrder := by
  by_cases hs : s.lifecycle = .created
  · rcases Nat.lt_or_ge 3584 rom.length with hr | hr
    · exact .inr (.inl ⟨_, load_of_too_large rom s hs hr, rfl⟩)
    · exact .inl ⟨_, load_of_fits rom s hs hr, rfl⟩
  · exact .inr (.inr (load_of_late rom s hs))

/-- After a Step that answers a next state a Load is too late (R191). -/
theorem lifecycle_of_step_next {s t : State} (h : step s = .next t) : t.lifecycle = .stepped := by
  obtain ⟨c, hc⟩ | hs | hs := s.halted_or_awaitingKey_or_running
  · cases (step_halted s c hc).symm.trans h
  · obtain ⟨v, w, hnext⟩ := step_awaitingKey_eq_next s hs
    cases hnext.symm.trans h
    rfl
  · obtain ⟨-, i, -, hexec⟩ := exec_of_step_next hs h
    obtain ⟨-, rfl⟩ := (exec_eq_next_iff i _ t).1 hexec
    rfl

/-- Settles O52: no answered state is at the created place of the lifecycle any more. -/
theorem loadIsRefusedOutOfOrder : Obligations.LoadIsRefusedOutOfOrder := by
  refine fun rom again s => ⟨fun t h => load_of_late _ _ ?_, fun f h => load_of_late _ _ ?_,
    fun t h => load_of_late _ _ ?_, fun f h => load_of_late _ _ ?_⟩
  · obtain ⟨t', h', hl⟩ | ⟨f, h', -⟩ | h' := load_cases rom s <;> cases h'.symm.trans h
    simp [hl]
  · obtain ⟨t, h', -⟩ | ⟨f', h', hl⟩ | h' := load_cases rom s <;> cases h'.symm.trans h
    simp [hl]
  · simp [lifecycle_of_step_next h]
  · simp [(halted_of_step_fault h).2]

end Sys2Proof.Machine
end

section
/-! SUPPORT. Drawing and the pixel port (spec/45_display.md R151, spec/20_memory.md R55): the screen and the flag after
a `Dxyn`, pixel by pixel, and what two draws at one place do. -/

namespace Sys2Proof.Machine

open Sys2Proof

/-! ### One draw -/

theorem flagByte_eq_one_iff (b : Bool) : flagByte b = 1 ↔ b = true := by
  cases b <;> decide

section Draw

variable (s : State) (x y : Reg) (n : Fin 16)

/-- Every pixel after a draw: lit exactly if it was lit or the sprite covers it, and not both (R151). -/
theorem pixel_afterOf_drw (r : Row) (c : Col) :
    (afterOf (.drw x y n) s).pixel r c = true ↔
      (s.pixel r c = true ↔ ¬ SpriteCovers s (s.reg x) (s.reg y) n.val r c) := by
  have hlen : (s.mem.readList s.i.toNat n.val).length ≤ 32 := by rw [Memory.length_readList]; omega
  have hdraw := drawSprite_pixel (s.reg x) (s.reg y) _ s.fb r c hlen
  rwa [spriteHits_readList] at hdraw

theorem flag_afterOf_drw :
    (afterOf (.drw x y n) s).reg 15 = flagByte (drawnAt s (s.reg x) (s.reg y) n.val).coll :=
  State.reg_setFlag 15 ..

/-- The flag after a draw is 1 exactly if the sprite covers a pixel that was lit (R151, decision D9). -/
theorem flag_afterOf_drw_eq_one_iff :
    (afterOf (.drw x y n) s).reg 15 = 1 ↔
      ∃ r c, SpriteCovers s (s.reg x) (s.reg y) n.val r c ∧ s.pixel r c = true := by
  have hlen : (s.mem.readList s.i.toNat n.val).length ≤ 32 := by rw [Memory.length_readList]; omega
  rw [flag_afterOf_drw, flagByte_eq_one_iff, drawnAt, drawSprite_coll _ _ _ _ hlen]
  simp only [spriteHits_readList]
  rfl

theorem flag_afterOf_drw_eq_zero_or_one :
    (afterOf (.drw x y n) s).reg 15 = 0 ∨ (afterOf (.drw x y n) s).reg 15 = 1 :=
  flag_afterOf_drw s x y n ▸ flagByte_eq_zero_or_one _

end Draw

/-- Settles O46: the pixels and the flag by the lemmas above, the rest by the frame of `Dxyn`. -/
theorem drawXorsTheSprite : Obligations.DrawXorsTheSprite := by
  intro x y n s hin
  have hfault : faultOf (.drw x y n) s = none := if_neg (by omega)
  refine ⟨_, exec_of_faultOf_none hfault, fun r c hcovers => ?_, fun r c hcovers => ?_,
    (flag_afterOf_drw_eq_one_iff s x y n).2, fun hnone => ?_, fun r hr => reg_effectOf_of_not_writes s hr, rfl,
    keptBut_afterOf (.drw x y n) s, stepEnds_afterOf (.drw x y n) s⟩
  · rw [Bool.eq_iff_iff, pixel_afterOf_drw]
    simp [hcovers]
  · rw [Bool.eq_iff_iff, pixel_afterOf_drw]
    simp [hcovers]
  · exact (flag_afterOf_drw_eq_zero_or_one s x y n).resolve_right (mt (flag_afterOf_drw_eq_one_iff s x y n).1 hnone)

/-! ### Two draws -/

/-- A sprite is what `I` and memory say (R151). -/
theorem spriteCovers_congr {s t : State} (hi : Part.index.Same s t) (hmem : Part.memory.Same s t) (vx vy : Byte)
    (n : Nat) (r : Row) (c : Col) : SpriteCovers t vx vy n r c ↔ SpriteCovers s vx vy n r c := by
  have hi : t.i = s.i := hi
  have hmem : ∀ a, t.byteAt a = s.byteAt a := hmem
  simp only [SpriteCovers, hi, hmem]

/-- Settles O24: the first draw keeps the sprite and its place, so a pixel is XORed with the same bit twice. -/
theorem drawingTwiceRestoresTheScreen : Obligations.DrawingTwiceRestoresTheScreen := by
  intro s t u x y n hx hy hfirst hsecond
  have hcovers := spriteCovers_congr (same_of_exec hfirst (p := .index) (by simp [partsOf]))
    (same_of_exec hfirst (p := .memory) (by simp [partsOf]))
  obtain ⟨-, ht⟩ := (exec_eq_next_iff _ s t).1 hfirst
  obtain ⟨-, rfl⟩ := (exec_eq_next_iff _ t u).1 hsecond
  have htx : t.reg x = s.reg x := ht ▸ reg_effectOf_of_not_writes s hx
  have hty : t.reg y = s.reg y := ht ▸ reg_effectOf_of_not_writes s hy
  refine ⟨fun r c => ?_, ?_, flag_afterOf_drw_eq_zero_or_one t x y n⟩
  · have honce : t.pixel r c = true ↔ _ := ht ▸ pixel_afterOf_drw s x y n r c
    rw [Bool.eq_iff_iff, pixel_afterOf_drw, honce, htx, hty, hcovers]
    tauto
  · rw [flag_afterOf_drw_eq_one_iff, htx, hty]
    simp only [hcovers]

/-! ### The pixel port -/

theorem pixelPort_inside (s : State) (y : Row) (x : Col) : pixelPort x.val y.val s = .ok (s.pixel y x) :=
  dif_pos ⟨x.isLt, y.isLt⟩

theorem pixelPort_outside (s : State) {x y : Nat} (h : 64 ≤ x ∨ 32 ≤ y) :
    pixelPort x y s = .error .pixelOutOfRange :=
  dif_neg (by omega)

/-- Settles O47: a linear index is taken apart into the row and the column it was made of. -/
theorem pixelPortReadsTheScreen : Obligations.PixelPortReadsTheScreen := by
  refine fun s => ⟨fun y x => ⟨pixelPort_inside s y x, ?_⟩, fun x y => pixelPort_outside s, fun k hk => ?_⟩
  · have hcol : (y.val * 64 + x.val) % 64 = x.val := by omega
    have hrow : (y.val * 64 + x.val) / 64 = y.val := by omega
    rw [pixelPortLinear, hcol, hrow, pixelPort_inside]
  · exact pixelPort_outside s (.inr (by omega))

end Sys2Proof.Machine
end

section
/-! SUPPORT. Single instructions from the normal form of `exec`: control transfer with the stack (spec/41_flow.md), the
skips on registers and keys (spec/42_skip.md, spec/46_timer_key.md), and the index and memory transfers
(spec/44_index_memory.md). -/

namespace Sys2Proof.Machine

open Sys2Proof

/-! ### The stack (R100, R102) -/

/-- Settles O25: `effectOf .ret` lowers `SP` alone. -/
theorem returnPopsTheStack : Obligations.ReturnPopsTheStack := by
  refine ⟨by decide, fun s => ⟨fun hsp => ?_, fun hsp => ?_⟩⟩
  · have hfault : faultOf .ret s = none := if_neg (by omega)
    refine ⟨_, exec_of_faultOf_none hfault, rfl, fun k hk => ?_, fun k => rfl, keptBut_afterOf .ret s,
      stepEnds_afterOf .ret s⟩
    simp [nextPc, ← hk]
  · exact ⟨_, exec_of_faultOf_some (i := .ret) (if_pos hsp), hsp, rfl⟩

/-- With a slot free a call writes it and raises `SP`. -/
theorem effectOf_call (addr : Addr) (s : State) (h : s.sp.val < 16) :
    effectOf (.call addr) s =
      { s with stack := s.stack.set s.sp.val (s.pc + 2), sp := ⟨s.sp.val + 1, by omega⟩ } := by
  simp [effectOf, State.push, h]

/-- Settles O27, by `effectOf_call`. -/
theorem callPushesTheReturnAddress : Obligations.CallPushesTheReturnAddress := by
  refine fun addr s => ⟨decodeWord_encode (.call addr), fun hsp => ?_, fun hsp => ?_⟩
  · have hfault : faultOf (.call addr) s = none := if_neg (by omega)
    refine ⟨_, exec_of_faultOf_none hfault, rfl, ?_, fun k hk => ?_, fun k hk => ?_, keptBut_afterOf (.call addr) s,
      stepEnds_afterOf (.call addr) s⟩
    · simp [effectOf_call addr s hsp]
    · simp [effectOf_call addr s hsp, hk]
    · simp [effectOf_call addr s hsp, Ne.symm hk]
  · exact ⟨_, exec_of_faultOf_some (i := .call addr) (if_pos hsp), fun k => rfl, hsp, rfl⟩

/-! ### Skips (R112, R113, R163, R164) -/

/-- An instruction without parts of its own only moves `PC`. -/
theorem exec_onlyMovesPc {i : Instr} {s : State} (hfault : faultOf i s = none) (hparts : partsOf i = [])
    (hchanged : changedBy i = false) : ∃ t, exec i s = .next t ∧ OnlyMovesPc (nextPc i s) s t :=
  ⟨_, exec_of_faultOf_none hfault, rfl, hparts ▸ keptBut_afterOf i s, hchanged ▸ stepEnds_afterOf i s⟩

/-- The words whose first nibble is 5 or 9 decode exactly with a last nibble of 0 (R66, decision D14). -/
theorem decodeWord_encodeXYN_5 (x y : Reg) (n : Fin 16) :
    decodeWord (encodeXYN 0x5 x y n) = if nibbleOf n = 0 then some (.seReg x y) else none := by
  simp [decodeWord]

theorem decodeWord_encodeXYN_9 (x y : Reg) (n : Fin 16) :
    decodeWord (encodeXYN 0x9 x y n) = if nibbleOf n = 0 then some (.sneReg x y) else none := by
  simp [decodeWord]

/-- Settles O30: both instructions only move `PC`, and only a last nibble of 0 decodes to them. -/
theorem skipsOnTwoRegisters : Obligations.SkipsOnTwoRegisters := by
  intro x y s
  refine ⟨decodeWord_encode (.seReg x y), decodeWord_encode (.sneReg x y), fun d hd => ⟨?_, ?_⟩, ?_, ?_⟩
  · exact (decodeWord_encodeXYN_5 x y d.index).trans (if_neg hd)
  · exact (decodeWord_encodeXYN_9 x y d.index).trans (if_neg hd)
  · exact exec_onlyMovesPc (i := .seReg x y) rfl rfl rfl
  · simpa only [nextPc, ne_eq, ite_not] using exec_onlyMovesPc (i := .sneReg x y) (s := s) rfl rfl rfl

/-- Settles O48: with a key named both instructions only move `PC`, and without one they raise `KEY_OOB`. -/
theorem skipsOnAKey : Obligations.SkipsOnAKey := by
  refine fun x s => ⟨fun hkey => ⟨?_, ?_⟩, fun hkey => ⟨?_, ?_⟩⟩
  · have hfault : faultOf (.skp x) s = none := if_neg (Nat.not_lt.2 hkey)
    exact exec_onlyMovesPc hfault rfl rfl
  · have hfault : faultOf (.sknp x) s = none := if_neg (Nat.not_lt.2 hkey)
    simpa only [nextPc, ← Bool.not_eq_true, ite_not] using exec_onlyMovesPc hfault rfl rfl
  · exact ⟨_, exec_of_faultOf_some (i := .skp x) (if_pos hkey)⟩
  · exact ⟨_, exec_of_faultOf_some (i := .sknp x) (if_pos hkey)⟩

/-! ### Index register (R141, R142) -/

/-- The flag of `Fx1E` compares the unreduced sum with the limit 0x0FFF (R141, decision D10). -/
theorem indexFlag_eq (i : Word) (vx : Byte) :
    indexFlag i vx = if i.toNat + vx.toNat > 0x0FFF then 1 else 0 := by
  simp [indexFlag, flagByte, indexSum, iFlagLimit]

/-- Settles O39: `I` first, then the flag, and the rest by the frame of `Fx1E`. -/
theorem addIndexSetsTheRangeFlag : Obligations.AddIndexSetsTheRangeFlag := by
  intro x s
  refine ⟨_, exec_of_faultOf_none rfl, BitVec.toNat_ofNat (s.i.toNat + (s.reg x).toNat) 16, ?_,
    fun r hr => reg_effectOf_of_not_writes s hr, rfl, keptBut_afterOf (.addI x) s, stepEnds_afterOf (.addI x) s⟩
  exact (State.reg_setFlag 15 ..).trans (indexFlag_eq s.i (s.reg x))

/-- Five times a byte fits the 16 bits of `I` (R142, decision D11). -/
theorem toNat_glyphAddress (b : Byte) : (glyphAddress b).toNat = b.toNat * 5 := by
  have hb := b.isLt
  rw [glyphAddress, BitVec.toNat_ofNat]
  omega

/-- Settles O40, by `toNat_glyphAddress`. -/
theorem fontAddressIsFiveTimesTheByte : Obligations.FontAddressIsFiveTimesTheByte := fun x s =>
  ⟨_, exec_of_faultOf_none (i := .ldF x) rfl, toNat_glyphAddress (s.reg x), rfl, keptBut_afterOf (.ldF x) s,
    stepEnds_afterOf (.ldF x) s⟩

/-! ### Memory transfer (R143 to R145) -/

/-- Settles O41: the three stored bytes by their places in the run, and every other byte by what `Fx33` stores to. -/
theorem bcdStoresThreeDigits : Obligations.BcdStoresThreeDigits := by
  intro x s hin
  have hfault : faultOf (.ldB x) s = none := if_neg (Nat.not_lt.2 hin)
  have hbyte := (s.reg x).isLt
  have hdigit := Memory.read_writeList_getElem (bcdDigits (s.reg x)) s.mem s.i.toNat
  refine ⟨_, exec_of_faultOf_none hfault, ?_, ?_, ?_, fun a ha => byteAt_effectOf_of_not_stores ?_, rfl,
    keptBut_afterOf (.ldB x) s, stepEnds_afterOf (.ldB x) s⟩
  · exact (congrArg BitVec.toNat (hdigit 0 (by simp))).trans (Nat.mod_eq_of_lt (by omega))
  · exact (congrArg BitVec.toNat (hdigit 1 (by simp))).trans (Nat.mod_eq_of_lt (by omega))
  · exact (congrArg BitVec.toNat (hdigit 2 (by simp))).trans (Nat.mod_eq_of_lt (by omega))
  · simp only [Stores]
    omega

/-- Settles O42: byte `k` of the stored run is `V[k]`, and every other byte stays by what `Fx55` stores to. -/
theorem registersAreStoredFromI : Obligations.RegistersAreStoredFromI := by
  intro x s hin
  have hfault : faultOf (.stRegs x) s = none := if_neg (Nat.not_lt.2 hin)
  refine ⟨_, exec_of_faultOf_none hfault, fun k hk => ?_, fun a ha => byteAt_effectOf_of_not_stores ?_, rfl,
    keptBut_afterOf (.stRegs x) s, stepEnds_afterOf (.stRegs x) s⟩
  · have hk' : k.val ≤ x.val := hk
    refine (Memory.read_writeList ..).trans ?_
    rw [State.length_regsUpTo, if_pos (by omega), Nat.add_sub_cancel_left, State.getD_regsUpTo s x k hk]
  · simp only [Stores]
    omega

/-- Settles O43: register `k` takes byte `k` of the loaded run, and those above `x` are not written. -/
theorem registersAreLoadedFromI : Obligations.RegistersAreLoadedFromI := by
  intro x s hin
  have hfault : faultOf (.ldRegs x) s = none := if_neg (Nat.not_lt.2 hin)
  refine ⟨_, exec_of_faultOf_none hfault, fun k hk => ?_, fun k hk => reg_effectOf_of_not_writes s hk, rfl,
    keptBut_afterOf (.ldRegs x) s, stepEnds_afterOf (.ldRegs x) s⟩
  have hk' : k.val ≤ x.val := hk
  refine (State.reg_setRegsFrom ..).trans ?_
  rw [Memory.length_readList, if_pos (by omega), Nat.sub_zero, Memory.getD_readList _ _ _ _ (by omega)]
  rfl

end Sys2Proof.Machine
end

section
/-! SUPPORT. The flag producers among the arithmetic (spec/43_alu.md R126 to R130): the instructions that are a
`writeFlagged`, and their flags and results as the spec writes them. -/

namespace Sys2Proof.Machine

open Sys2Proof

/-- The shared end of the flag producers: the flag, then the result, all else kept (R132, decision D8). -/
theorem writeFlagged_setsFlagged (x : Reg) (flag result : Byte) (s : State) :
    ∃ t, writeFlagged x flag result s = .next t ∧ SetsFlagged x flag result s t := by
  refine ⟨_, rfl, ?_, fun hx => reg_flag_of_ne hx flag result s, fun r hr hflag => ?_, rfl, ?_,
    stepEnds_setPc_endStep false _ s _ rfl rfl⟩
  · simp
  · simp [hr, hflag]
  · simpa using (keptBut_setFlag flag s).trans (keptBut_setReg x result _)

/-! ### The sum (R126) -/

theorem carryFlag_eq (vx vy : Byte) : carryFlag vx vy = if vx.toNat + vy.toNat > 255 then 1 else 0 := by
  simp [carryFlag, flagByte, wideSum]

theorem sumByte_eq (vx vy : Byte) : sumByte vx vy = BitVec.ofNat 8 ((vx.toNat + vy.toNat) % 256) := by
  apply BitVec.eq_of_toNat_eq
  rw [toNat_sumByte, BitVec.toNat_ofNat]
  omega

/-- Settles O34: `8xy4` is a `writeFlagged` of the carry and the sum. -/
theorem addSetsTheCarry : Obligations.AddSetsTheCarry := by
  intro x y s
  rw [← carryFlag_eq, ← sumByte_eq]
  exact writeFlagged_setsFlagged x _ _ s

/-! ### The differences (R127, R129) -/

theorem greaterFlag_eq (minuend subtrahend : Byte) :
    greaterFlag minuend subtrahend = if minuend.toNat > subtrahend.toNat then 1 else 0 := by
  simp [greaterFlag, flagByte]

theorem differenceByte_eq (minuend subtrahend : Byte) : differenceByte minuend subtrahend = minuend - subtrahend := by
  have hsub := subtrahend.isLt
  apply BitVec.eq_of_toNat_eq
  rw [differenceByte, BitVec.toNat_ofNat, BitVec.toNat_sub]
  omega

/-- Settles O35: both instructions are a `writeFlagged` of the strict comparison and the difference. -/
theorem subtractsSetTheStrictFlag : Obligations.SubtractsSetTheStrictFlag := by
  intro x y s
  rw [← greaterFlag_eq, ← greaterFlag_eq, ← differenceByte_eq, ← differenceByte_eq]
  exact ⟨writeFlagged_setsFlagged x _ _ s, writeFlagged_setsFlagged x _ _ s⟩

/-! ### The shifts (R128, R130) -/

theorem lowBitFlag_eq (vx : Byte) : lowBitFlag vx = BitVec.ofNat 8 (vx.toNat % 2) := by
  revert vx; decide

theorem shiftedRight_eq (vx : Byte) : shiftedRight vx = BitVec.ofNat 8 (vx.toNat / 2) := by
  revert vx; decide

theorem highBitFlag_eq (vx : Byte) : highBitFlag vx = BitVec.ofNat 8 (vx.toNat / 128) := by
  revert vx; decide

theorem shiftedLeft_eq (vx : Byte) : shiftedLeft vx = BitVec.ofNat 8 (vx.toNat * 2 % 256) := by
  revert vx; decide

/-- Settles O36: both instructions are a `writeFlagged` of the bit shifted out and the shifted byte. -/
theorem shiftsPutTheBitInTheFlag : Obligations.ShiftsPutTheBitInTheFlag := by
  intro x y s
  rw [← lowBitFlag_eq, ← shiftedRight_eq, ← highBitFlag_eq, ← shiftedLeft_eq]
  exact ⟨writeFlagged_setsFlagged x _ _ s, writeFlagged_setsFlagged x _ _ s⟩

end Sys2Proof.Machine
end
